-- ==== Sys2Proof/Word.lean ====
section
/-!
DEFINITION. The widths of the values the BFC stores and is given (rule R7 of 00_scope.md).
-/
namespace Sys2Proof

/-- A command word as presented on port cmd (R60 of 30_encoding.md). -/
abbrev Word := BitVec 32

/-- One byte of the packed buffer, and the datum of WRB (R62 of 30_encoding.md). -/
abbrev Byte := BitVec 8

/-- A raw field: 13 bits (R43 of 20_memory.md). -/
abbrev RawField := BitVec 13

/-- The content of BUF: 104 bits, 13 bytes, byte 0 least significant (R21 of 10_state.md). -/
abbrev Buffer := BitVec 104

/-- The content of RES, and a binary64 bit pattern (R22 of 10_state.md, R10 of 00_scope.md). -/
abbrev Result := BitVec 64

/-- The value operand of INS (R62 of 30_encoding.md). -/
abbrev InsValue := BitVec 16

end Sys2Proof
end

