-- ==== Sys2Proof/Syntax.lean ====
section
/-!
DEFINITION. The commands: one constructor per row of spec/opcode_table.json, in the order of rule R63 of 30_encoding.md.
Operands are the encoding's own fields, unsigned and unscaled (rule R62): j is BI (4 bits), i is FI (3 bits), d is
IMM[7:0], v is IMM.
-/
namespace Sys2Proof

inductive Instr where
  /-- No operation (R80 of 40_buffer.md). -/
  | nop
  /-- Zero the buffer (R81 of 40_buffer.md). -/
  | clr
  /-- Write byte j with the datum d (R82 of 40_buffer.md). -/
  | wrb (j : BitVec 4) (d : Byte)
  /-- Read byte j into RES (R83 of 40_buffer.md). -/
  | rdb (j : BitVec 4)
  /-- Extract field i into RES (R90 of 41_extract.md). -/
  | ext (i : BitVec 3)
  /-- Scale field i into RES (R100 of 42_scale.md). -/
  | scl (i : BitVec 3)
  /-- Insert the value v at field i (R110 of 43_pack.md). -/
  | ins (i : BitVec 3) (v : InsValue)
  deriving DecidableEq, Repr

end Sys2Proof
end

