-- ==== Sys2Proof/WellFormed.lean ====
section
/-!
DEFINITION. Which instructions a legal command word can stand for. The one operand that can be out of range is a byte
index: "a field index cannot be out of range (3 bits, 8 fields)" (rule R47 of 20_memory.md).
-/
namespace Sys2Proof

/-- The operand ranges of the assembler's table (R69 of 30_encoding.md), equal to the extra conditions of R64. -/
def Instr.wf : Instr → Bool
  | .nop => true
  | .clr => true
  | .wrb j _ => decide (j.toNat ≤ 12)
  | .rdb j => decide (j.toNat ≤ 12)
  | .ext _ => true
  | .scl _ => true
  | .ins _ _ => true

end Sys2Proof
end

