-- ==== Sys2Proof/Decode.lean ====
section
/-!
DEFINITION. Command words: their fields (R61 of 30_encoding.md), the decoder, the encoder (the word column of R69), and the
legality check of R66 with the mask and match rows of R64, written out as the spec writes them. The decoder reads fields
and the legality check reads masks: that the two agree is a statement, not a definition.
-/
namespace Sys2Proof

/-- OP, cmd[3:0]. -/
def opOf (c : Word) : BitVec 4 := c.extractLsb' 0 4

/-- FI, cmd[6:4]: the field index i. -/
def fiOf (c : Word) : BitVec 3 := c.extractLsb' 4 3

/-- Z0, cmd[7]: reserved, must be 0. -/
def z0Of (c : Word) : BitVec 1 := c.extractLsb' 7 1

/-- BI, cmd[11:8]: the byte index j. -/
def biOf (c : Word) : BitVec 4 := c.extractLsb' 8 4

/-- Z1, cmd[15:12]: reserved, must be 0. -/
def z1Of (c : Word) : BitVec 4 := c.extractLsb' 12 4

/-- IMM, cmd[31:16]: the value v of INS. -/
def immOf (c : Word) : InsValue := c.extractLsb' 16 16

/-- IMM[7:0], cmd[23:16]: the datum d of WRB. -/
def datumOf (c : Word) : Byte := c.extractLsb' 16 8

/-- IMM[15:8], cmd[31:24]: must be 0 in WRB. -/
def immHighOf (c : Word) : BitVec 8 := c.extractLsb' 24 8

/-- A byte index is legal in 0..12 (R51 of 20_memory.md). -/
def byteIndexLegal (j : BitVec 4) : Bool := decide (j.toNat ≤ 12)

/-- Why a word is illegal. The hardware does not tell the three reasons apart (R120 of 60_exceptions.md); the decoder
names one of those that hold, the first in this order (log 16). -/
inductive DecodeError where
  /-- Opcode 0x7..0xF (R65 of 30_encoding.md). -/
  | reservedOpcode (op : BitVec 4)
  /-- A nonzero bit in a field the opcode does not use (R61 of 30_encoding.md). -/
  | unusedFieldNonzero
  /-- WRB or RDB with a byte index of 13, 14 or 15 (R51 of 20_memory.md). -/
  | byteIndexOutOfRange (j : BitVec 4)
  deriving DecidableEq, Repr

/-- The decoder, total on every 32-bit word. -/
def decode (c : Word) : Except DecodeError Instr :=
  if opOf c = 0x0#4 then
    if fiOf c = 0 ∧ z0Of c = 0 ∧ biOf c = 0 ∧ z1Of c = 0 ∧ immOf c = 0 then .ok .nop
    else .error .unusedFieldNonzero
  else if opOf c = 0x1#4 then
    if fiOf c = 0 ∧ z0Of c = 0 ∧ biOf c = 0 ∧ z1Of c = 0 ∧ immOf c = 0 then .ok .clr
    else .error .unusedFieldNonzero
  else if opOf c = 0x2#4 then
    if fiOf c = 0 ∧ z0Of c = 0 ∧ z1Of c = 0 ∧ immHighOf c = 0 then
      if byteIndexLegal (biOf c) then .ok (.wrb (biOf c) (datumOf c))
      else .error (.byteIndexOutOfRange (biOf c))
    else .error .unusedFieldNonzero
  else if opOf c = 0x3#4 then
    if fiOf c = 0 ∧ z0Of c = 0 ∧ z1Of c = 0 ∧ immOf c = 0 then
      if byteIndexLegal (biOf c) then .ok (.rdb (biOf c))
      else .error (.byteIndexOutOfRange (biOf c))
    else .error .unusedFieldNonzero
  else if opOf c = 0x4#4 then
    if z0Of c = 0 ∧ biOf c = 0 ∧ z1Of c = 0 ∧ immOf c = 0 then .ok (.ext (fiOf c))
    else .error .unusedFieldNonzero
  else if opOf c = 0x5#4 then
    if z0Of c = 0 ∧ biOf c = 0 ∧ z1Of c = 0 ∧ immOf c = 0 then .ok (.scl (fiOf c))
    else .error .unusedFieldNonzero
  else if opOf c = 0x6#4 then
    if z0Of c = 0 ∧ biOf c = 0 ∧ z1Of c = 0 then .ok (.ins (fiOf c) (immOf c))
    else .error .unusedFieldNonzero
  else .error (.reservedOpcode (opOf c))

/-- The encoder: the word column of the table of R69. On an instruction that is not well formed (a byte index of 13
to 15) it gives the illegal word with that index in BI. -/
def encode : Instr → Word
  | .nop => 0x00000000#32
  | .clr => 0x00000001#32
  | .wrb j d => (d.setWidth 32 <<< 16) ||| (j.setWidth 32 <<< 8) ||| 0x2#32
  | .rdb j => (j.setWidth 32 <<< 8) ||| 0x3#32
  | .ext i => (i.setWidth 32 <<< 4) ||| 0x4#32
  | .scl i => (i.setWidth 32 <<< 4) ||| 0x5#32
  | .ins i v => (v.setWidth 32 <<< 16) ||| (i.setWidth 32 <<< 4) ||| 0x6#32

/-- One row of the table of R64: a word matches it when (cmd & mask) = value, and, where `indexed`, cmd[11:8] <= 12. -/
structure OpcodeRow where
  mnemonic : String
  value    : Word
  mask     : Word
  indexed  : Bool
  deriving DecidableEq, Repr

/-- The rows of R64, as spec/opcode_table.json lists them. -/
def opcodeTable : List OpcodeRow :=
  [ { mnemonic := "NOP", value := 0x00000000#32, mask := 0xFFFFFFFF#32, indexed := false },
    { mnemonic := "CLR", value := 0x00000001#32, mask := 0xFFFFFFFF#32, indexed := false },
    { mnemonic := "WRB", value := 0x00000002#32, mask := 0xFF00F0FF#32, indexed := true },
    { mnemonic := "RDB", value := 0x00000003#32, mask := 0xFFFFF0FF#32, indexed := true },
    { mnemonic := "EXT", value := 0x00000004#32, mask := 0xFFFFFF8F#32, indexed := false },
    { mnemonic := "SCL", value := 0x00000005#32, mask := 0xFFFFFF8F#32, indexed := false },
    { mnemonic := "INS", value := 0x00000006#32, mask := 0x0000FF8F#32, indexed := false } ]

/-- A word fits a row's pattern: (cmd & mask) = match (R64). -/
def rowMatches (r : OpcodeRow) (c : Word) : Bool := decide (c &&& r.mask = r.value)

/-- The legality check of R66. -/
def legal (c : Word) : Bool :=
  opcodeTable.any fun r => rowMatches r c && (!r.indexed || byteIndexLegal (biOf c))

/-- The row an instruction comes from, by the opcode map of R63. -/
def Instr.opcode : Instr → BitVec 4
  | .nop => 0x0#4
  | .clr => 0x1#4
  | .wrb _ _ => 0x2#4
  | .rdb _ => 0x3#4
  | .ext _ => 0x4#4
  | .scl _ => 0x5#4
  | .ins _ _ => 0x6#4

/-- What the decoder reads from an instruction whose bits are w, numbered as spec/opcode_table.json numbers them. A
command is one 32-bit word presented whole on a port, so there is no byte order to choose (log 13). -/
def decodeTableWord (nbits w : Nat) : Option Instr :=
  if nbits ≤ 32 then (decode (BitVec.ofNat 32 (w % 2 ^ nbits))).toOption else none

end Sys2Proof
end

