-- ==== Sys2Proof/Config.lean ====
section
/-!
DEFINITION. What is fixed for this hardware (rule R6 of 00_scope.md: none is left open) and the free values: what the
registers hold before the first reset (rule R144 of 70_reset_and_hazards.md).
-/
namespace Sys2Proof.Config

/-- NB, the bytes in the buffer (R6). -/
abbrev bufferBytes : Nat := 13

/-- NF, the number of fields (R6). -/
abbrev fieldCount : Nat := 8

/-- WF, the bits per field (R6). -/
abbrev fieldWidth : Nat := 13

/-- FMAX + 1 = 2^13: INS values from here on spill (R6, R112 of 43_pack.md). -/
abbrev fieldLimit : Nat := 8192

/-- C_SCALE, the binary64 value nearest 1/20, by its bit pattern (R101 of 42_scale.md). -/
abbrev scaleConstant : Result := 0x3FA999999999999A#64

/-- C_OFF, 20.0 in binary64, by its bit pattern (R101 of 42_scale.md). -/
abbrev offsetConstant : Result := 0x4034000000000000#64

/-- FREE VALUE (log 4): BUF after the n-th edge of a BFC that has not been reset. R144: "each may hold any value of
its width". -/
opaque powerUpBuf : Nat → Buffer

/-- FREE VALUE (log 4): RES after the n-th edge of a BFC that has not been reset (R144). -/
opaque powerUpRes : Nat → Result

/-- FREE VALUE (log 4): OVF after the n-th edge of a BFC that has not been reset (R144). -/
opaque powerUpOvf : Nat → Bool

/-- FREE VALUE (log 4): ILL after the n-th edge of a BFC that has not been reset (R144). -/
opaque powerUpIll : Nat → Bool

end Sys2Proof.Config
end

