-- ==== Sys2Proof/Machine/State.lean ====
section
/-!
DEFINITION. What the machine holds: the four registers of rule R20 of 10_state.md, the host's command index (R31), and the
input values the host is going to present at the coming rising edges (R29).
-/
namespace Sys2Proof.Machine

/-- The input ports at one rising edge of clk (R29 of 10_state.md). -/
structure Edge where
  rst      : Bool
  cmdValid : Bool
  cmd      : Word
  deriving DecidableEq, Repr

/-- Whether the BFC has been reset since power-up. -/
inductive Phase where
  /-- Not yet reset: the registers are unspecified (R144 of 70_reset_and_hazards.md). `draw` is the model's own counter
  of the edges since power-up; it indexes the free values of Config (log 4). -/
  | powerUp (draw : Nat)
  /-- Reset. `index` is the host's command index, which "plays the role of a program counter, is host state, starts at
  0 after reset, and advances by exactly 1 for every performed command" (R31 of 10_state.md; log 3). -/
  | running (index : Nat)
  deriving DecidableEq, Repr

structure State where
  /-- BUF, the packed buffer (R21 of 10_state.md). -/
  buf     : Buffer
  /-- RES, the result of the last EXT, RDB or SCL (R22 of 10_state.md). -/
  res     : Result
  /-- OVF, the last legal INS had a value of 8192 or more (R24 of 10_state.md). -/
  ovf     : Bool
  /-- ILL, sticky: some command since reset was illegal (R25 of 10_state.md). -/
  ill     : Bool
  phase   : Phase
  /-- The inputs at the coming rising edges, the next one first; after the last one the edges are idle (logs 1, 2). -/
  pending : List Edge
  deriving DecidableEq, Repr

/-- The machine never stops: R120 of 60_exceptions.md gives one exceptional condition and R121 lets the next command be
performed normally after it; R125 gives no trap. So no reason to stop exists, and the type is empty (log 12; safe). -/
inductive Fault where
  deriving DecidableEq, Repr

inductive Refusal where
  /-- Raised by exec alone, for an instruction that has no meaning yet; no arm raises it in this model. Safe. -/
  | notModelled (mnemonic : String)
  deriving DecidableEq, Repr

/-- Right after a reset edge (R32 of 10_state.md, R140 of 70_reset_and_hazards.md), the command index at 0 (R31), and
nothing presented yet (log 1). -/
def State.reset : State :=
  { buf := 0, res := 0, ovf := false, ill := false, phase := .running 0, pending := [] }

/-- Right after power-up, before any edge: every register is a free value (R144; log 4). -/
def State.powerUp : State :=
  { buf := Config.powerUpBuf 0, res := Config.powerUpRes 0, ovf := Config.powerUpOvf 0, ill := Config.powerUpIll 0,
    phase := .powerUp 0, pending := [] }

end Sys2Proof.Machine
end

