-- ==== Sys2Proof/Machine/Flags.lean ====
section
/-!
DEFINITION. The two status bits: the value INS gives OVF, and the pair STATUS.
-/
namespace Sys2Proof.Machine

/-- OVF after a legal INS of v: 1 when v >= 8192 (R113 of 43_pack.md). -/
def overflows (v : InsValue) : Bool := decide (Config.fieldLimit ≤ v.toNat)

/-- STATUS = {ILL, OVF}: OVF is bit 0, ILL is bit 1 (R23 of 10_state.md). -/
def statusPair (s : State) : BitVec 2 := BitVec.ofBool s.ill ++ BitVec.ofBool s.ovf

end Sys2Proof.Machine
end

