-- ==== Sys2Proof/Machine/Operands.lean ====
section
/-!
DEFINITION. The two operand forms of the BFC, a byte of the buffer and a 13-bit field of it: how each is read and written.
Both are views of the one register BUF (rule R46 of 20_memory.md).
-/
namespace Sys2Proof.Machine

/-- Byte(j) = BUF[8j+7:8j] (R41 of 20_memory.md); MemRead(j, 1) of R9 of 00_scope.md is its synonym. From 13 on it
reads as 0, as R91 of 41_extract.md wants of Byte(13); no command reads there. -/
def byteOf (b : Buffer) (j : Nat) : Byte := b.extractLsb' (8 * j) 8

/-- Byte(j) <- d, the other bytes unchanged: (BUF & ~(0xFF << 8j)) | (d << 8j) (R82 of 40_buffer.md); MemWrite(j, 1, d)
of R9 is its synonym. -/
def setByte (b : Buffer) (j : Nat) (d : Byte) : Buffer :=
  (b &&& ~~~((0xFF#104) <<< (8 * j))) ||| (d.setWidth 104 <<< (8 * j))

/-- Field(i) = BUF[13i+12:13i] (R43 of 20_memory.md). -/
def fieldOf (b : Buffer) (i : Nat) : RawField := b.extractLsb' (13 * i) 13

/-- pack(B, i, v) of R111 of 43_pack.md: the span of field i is cleared, then all 16 bits of v are ORed in at offset 13i;
bits at 104 and above are dropped by the width. -/
def pack (b : Buffer) (i : Nat) (v : InsValue) : Buffer :=
  (b &&& ~~~((0x1FFF#104) <<< (13 * i))) ||| (v.setWidth 104 <<< (13 * i))

/-- The byte-composed form of a field read (R91 of 41_extract.md), an alternative to `fieldOf` that an implementation may
compute. -/
def fieldByBytes (b : Buffer) (i : Nat) : RawField :=
  let n := 13 * i
  let j := n / 8
  let w : BitVec 24 := (byteOf b j).setWidth 24 ||| ((byteOf b (j + 1)).setWidth 24 <<< 8)
    ||| ((byteOf b (j + 2)).setWidth 24 <<< 16)
  (w >>> (n % 8)).setWidth 13

end Sys2Proof.Machine
end

