-- ==== Sys2Proof/Machine/Ops.lean ====
section
/-!
DEFINITION. The named operations on the state: the register writes of rule R9 of 00_scope.md, taking the one exception,
reset, and what an edge does before the first reset.
-/
namespace Sys2Proof.Machine

/-- BUF <- v (R9). -/
def State.writeBuf (s : State) (v : Buffer) : State := { s with buf := v }

/-- RES <- v (R9). -/
def State.writeRes (s : State) (v : Result) : State := { s with res := v }

/-- OVF <- b (R9). -/
def State.writeOvf (s : State) (b : Bool) : State := { s with ovf := b }

/-- ILL <- b (R9). -/
def State.writeIll (s : State) (b : Bool) : State := { s with ill := b }

def State.withPhase (s : State) (p : Phase) : State := { s with phase := p }

def State.withPending (s : State) (es : List Edge) : State := { s with pending := es }

/-- Taking the exception IllegalCommand: ILL <- 1 and nothing else for this command (R121 of 60_exceptions.md, `raise` of
R9). It saves no state and transfers no control (R125), so there is no return from it (R127). -/
def State.raiseIllegal (s : State) : State := s.writeIll true

/-- A reset edge: every register to 0 (R140 of 70_reset_and_hazards.md) and the host's command index to 0 (R31). -/
def State.resetRegisters (s : State) : State :=
  { s with buf := 0, res := 0, ovf := false, ill := false, phase := .running 0 }

/-- An edge without reset before the first reset: no rule gives it a meaning (R144), so the registers after it are fresh
free values, whatever the inputs (log 4). -/
def State.drawRegisters (s : State) (n : Nat) : State :=
  { s with buf := Config.powerUpBuf n, res := Config.powerUpRes n, ovf := Config.powerUpOvf n,
           ill := Config.powerUpIll n, phase := .powerUp n }

end Sys2Proof.Machine
end

