-- ==== Sys2Proof/Machine/Buffer.lean ====
section
/-!
DEFINITION. The buffer commands NOP, CLR, WRB, RDB (40_buffer.md).
-/
namespace Sys2Proof.Machine

/-- R80: nothing. -/
def execNop (s : State) : Host.Outcome State Fault Refusal := .next s

/-- R81: BUF <- 0; RES, OVF and ILL unchanged. -/
def execClr (s : State) : Host.Outcome State Fault Refusal := .next (s.writeBuf 0)

/-- R82: Byte(j) <- d. Its pseudocode begins with the legality check, which "includes j >= 13" (log 8). -/
def execWrb (j : BitVec 4) (d : Byte) (s : State) : Host.Outcome State Fault Refusal :=
  if byteIndexLegal j then .next (s.writeBuf (setByte s.buf j.toNat d)) else .next s.raiseIllegal

/-- R83: RES <- zext_64(Byte(j)). Its pseudocode begins with the legality check, which "includes j >= 13" (log 8). -/
def execRdb (j : BitVec 4) (s : State) : Host.Outcome State Fault Refusal :=
  if byteIndexLegal j then .next (s.writeRes ((byteOf s.buf j.toNat).setWidth 64)) else .next s.raiseIllegal

end Sys2Proof.Machine
end

