-- ==== Sys2Proof/Machine/Extract.lean ====
section
/-!
DEFINITION. The field extractor EXT (41_extract.md).
-/
namespace Sys2Proof.Machine

/-- R90: RES <- zext_64(Field(i)); BUF, OVF and ILL unchanged. -/
def execExt (i : BitVec 3) (s : State) : Host.Outcome State Fault Refusal :=
  .next (s.writeRes ((fieldOf s.buf i.toNat).setWidth 64))

end Sys2Proof.Machine
end

