-- ==== Sys2Proof/Machine/Pack.lean ====
section
/-!
DEFINITION. The field packer INS (43_pack.md).
-/
namespace Sys2Proof.Machine

/-- R110: BUF <- pack(BUF, i, v) (R111), OVF <- (v >= 8192) (R113); RES and ILL unchanged. -/
def execIns (i : BitVec 3) (v : InsValue) (s : State) : Host.Outcome State Fault Refusal :=
  .next ((s.writeBuf (pack s.buf i.toNat v)).writeOvf (overflows v))

end Sys2Proof.Machine
end

