-- ==== Sys2Proof/Machine/Float64.lean ====
section
/-!
DEFINITION. Binary64 as rule R10 of 00_scope.md notates it: `f64`, `val`, multiplication and subtraction, each operation
exact and then rounded once, to nearest with ties to the even significand. The definition of binary64 itself is the spec's
general knowledge (93_implementation_defined.md G1; log 10). An exact value is a fraction: an integer over a positive natural.
-/
namespace Sys2Proof.Machine

/-- The natural number nearest n/d, ties to the even one (d > 0). -/
def roundHalfEven (n d : Nat) : Nat :=
  if d < 2 * (n % d) ∨ (2 * (n % d) = d ∧ n / d % 2 = 1) then n / d + 1 else n / d

/-- floor(log2(a/d)) for positive a and d: one of the two candidates the lengths of a and d leave. -/
def floorLog2 (a d : Nat) : Int :=
  let k : Int := (Nat.log2 a : Int) - (Nat.log2 d : Int)
  if d * 2 ^ k.toNat ≤ a * 2 ^ (-k).toNat then k else k - 1

/-- The exponent of the last significand place of the binary64 numbers near a/d: 52 below the leading bit, and never
below -1074, the place of the subnormals. -/
def lastPlace (a d : Nat) : Int := max (floorLog2 a d - 52) (-1074)

/-- a/d counted in units of 2^e and rounded: the significand. -/
def significand (a d : Nat) (e : Int) : Nat := roundHalfEven (a * 2 ^ (-e).toNat) (d * 2 ^ e.toNat)

/-- f64(n/d): the bit pattern of the binary64 value nearest n/d, for |n/d| below 2^1024 (R10). With the significand m in
units of the last place e, the exponent and fraction fields together are (e + 1074) * 2^52 + m: a significand of 2^52 or more
carries the hidden bit into the exponent field, and one rounded up to 2^53 carries once more. An exact zero is +0: R10 says so
of a difference, and for any other zero it is the model's choice (log 10). -/
def f64 (n : Int) (d : Nat) : Result :=
  if n = 0 then 0#64
  else
    let e := lastPlace n.natAbs d
    BitVec.ofNat 64 ((if n < 0 then 2 ^ 63 else 0) + (e + 1074).toNat * 2 ^ 52 + significand n.natAbs d e)

/-- Biased exponent, bits 62:52. -/
def exponentField (x : Result) : Nat := x.toNat / 2 ^ 52 % 2 ^ 11

/-- Fraction, bits 51:0. -/
def fractionField (x : Result) : Nat := x.toNat % 2 ^ 52

/-- The significand with its hidden bit, in units of 2^(max(exponent, 1) - 1075). -/
def significandOf (x : Result) : Nat :=
  if exponentField x = 0 then fractionField x else 2 ^ 52 + fractionField x

/-- The numerator of val(x), with its sign. -/
def valNum (x : Result) : Int :=
  let m : Int := ((significandOf x * 2 ^ (max (exponentField x) 1 - 1075) : Nat) : Int)
  if x.msb then -m else m

/-- The denominator of val(x): a power of two, and 1 for a zero. -/
def valDen (x : Result) : Nat :=
  if significandOf x = 0 then 1 else 2 ^ (1075 - max (exponentField x) 1)

/-- Binary64 multiplication: f64(val(a) * val(b)) (R10; beyond finite operands, log 10). -/
def f64Mul (a b : Result) : Result := f64 (valNum a * valNum b) (valDen a * valDen b)

/-- Binary64 subtraction: f64(val(a) - val(b)) (R10; beyond finite operands, log 10). -/
def f64Sub (a b : Result) : Result :=
  f64 (valNum a * (valDen b : Int) - valNum b * (valDen a : Int)) (valDen a * valDen b)

/-- val(x) as a rational number, for statements: the machine computes with the numerator and the denominator. -/
def valRat (x : Result) : ℚ := (valNum x : ℚ) / (valDen x : ℚ)

end Sys2Proof.Machine
end

