-- ==== Sys2Proof/Machine/Scale.lean ====
section
/-!
DEFINITION. The affine scaler SCL (42_scale.md).
-/
namespace Sys2Proof.Machine

/-- physicalValue(r) of R100: f64(r), multiplied by C_SCALE (first rounding), minus C_OFF (second rounding). -/
def physicalValue (r : RawField) : Result :=
  f64Sub (f64Mul (f64 (r.toNat : Int) 1) Config.scaleConstant) Config.offsetConstant

/-- R100: RES <- bits64(physicalValue(Field(i))); BUF, OVF and ILL unchanged, no floating-point status (R103). -/
def execScl (i : BitVec 3) (s : State) : Host.Outcome State Fault Refusal :=
  .next (s.writeRes (physicalValue (fieldOf s.buf i.toNat)))

end Sys2Proof.Machine
end

