-- ==== Sys2Proof/Machine/Dispatch.lean ====
section
/-!
DEFINITION. exec: one arm per instruction.
-/
namespace Sys2Proof.Machine

def exec (i : Instr) (s : State) : Host.Outcome State Fault Refusal :=
  match i with
  | .nop => Sys2Proof.Machine.execNop s
  | .clr => Sys2Proof.Machine.execClr s
  | .wrb j d => Sys2Proof.Machine.execWrb j d s
  | .rdb j => Sys2Proof.Machine.execRdb j s
  | .ext f => Sys2Proof.Machine.execExt f s
  | .scl f => Sys2Proof.Machine.execScl f s
  | .ins f v => Sys2Proof.Machine.execIns f v s

end Sys2Proof.Machine
end

