-- ==== Sys2Proof/Machine/Fetch.lean ====
section
/-!
DEFINITION. What happens at one rising edge of clk, given the input ports: the priority of rule R124 of 60_exceptions.md. The
BFC fetches nothing (R31 of 10_state.md): the next command is the one the host presents.
-/
namespace Sys2Proof.Machine

/-- An edge with rst = 0 and cmd_valid = 0; the word on cmd is not looked at (R33 of 10_state.md). -/
def Edge.idle : Edge := { rst := false, cmdValid := false, cmd := 0 }

/-- An edge that presents a command word. -/
def Edge.command (c : Word) : Edge := { rst := false, cmdValid := true, cmd := c }

/-- The inputs at the next edge; idle when the host has nothing left to present (log 2). -/
def State.nextEdge (s : State) : Edge := s.pending.headD Edge.idle

/-- The state with the next edge's inputs taken up. -/
def State.dropEdge (s : State) : State := s.withPending s.pending.tail

/-- Perform a command word: its command's effect, or IllegalCommand if it fails the legality check (R11 of 00_scope.md,
R124 of 60_exceptions.md). -/
def performWord (c : Word) (s : State) : Host.Outcome State Fault Refusal :=
  match decode c with
  | .ok i => exec i s
  | .error _ => .next s.raiseIllegal

/-- One rising edge. Reset wins over a command, which is dropped (R141); before the first reset nothing else has a meaning
(R144; log 4); a performed command, legal or not, advances the command index by 1 (R31); an idle edge keeps every register
(R33). -/
def performEdge (e : Edge) (s : State) : Host.Outcome State Fault Refusal :=
  if e.rst then .next s.resetRegisters
  else
    match s.phase with
    | .powerUp n => .next (s.drawRegisters (n + 1))
    | .running k => if e.cmdValid then performWord e.cmd (s.withPhase (.running (k + 1))) else .next s

/-- Present the word w at the very next edge, in place of what the host was going to present there. -/
def presentWord (s : State) (w : Word) : State := s.withPending (Edge.command w :: s.pending.tail)

end Sys2Proof.Machine
end

