-- ==== Sys2Proof/Machine/Step.lean ====
section
/-!
DEFINITION. One step is one rising edge of clk (rule R142 of 70_reset_and_hazards.md).
-/
namespace Sys2Proof.Machine

def step (s : State) : Host.Outcome State Fault Refusal := performEdge s.nextEdge s.dropEdge

/-- s with the instruction of bits w (its bits above nbits zero) on port cmd, cmd_valid = 1 and rst = 0, at the very next edge.
A program is not stored in the BFC (R54 of 20_memory.md): the host presents it, and this is that presentation (log 6). -/
def State.withFetchWord (s : State) (nbits w : Nat) : State := presentWord s (BitVec.ofNat 32 (w % 2 ^ nbits))

end Sys2Proof.Machine
end

