-- ==== Sys2Proof/Machine/Assembler.lean ====
section
/-!
DEFINITION. The assembler syntax of rule R69 of 30_encoding.md, on one line given as its characters: "One command per line; the
mnemonic, then its operands separated by commas; mnemonics are case-insensitive; numbers are decimal or `0x` hexadecimal; `;`
starts a comment to the end of the line." What the rule leaves to the assembler (blanks, empty lines, pseudo-commands) is log 17.
-/
namespace Sys2Proof.Machine

/-- What one line of assembler text stands for. -/
inductive AsmLine where
  /-- Nothing but blanks and a comment. -/
  | blank
  /-- One command. -/
  | command (i : Instr)
  /-- Refused: no command of R69, or an operand outside its range. -/
  | refused
  deriving DecidableEq, Repr

def isBlank (c : Char) : Bool := c == ' ' || c == '\t'

/-- The text without the blanks before and after it. -/
def trimBlanks (cs : List Char) : List Char := ((cs.dropWhile isBlank).reverse.dropWhile isBlank).reverse

/-- The value of a digit in hexadecimal. -/
def digitValue (c : Char) : Option Nat :=
  if '0' ≤ c ∧ c ≤ '9' then some (c.toNat - '0'.toNat)
  else if 'a' ≤ c ∧ c ≤ 'f' then some (c.toNat - 'a'.toNat + 10)
  else if 'A' ≤ c ∧ c ≤ 'F' then some (c.toNat - 'A'.toNat + 10)
  else none

/-- Digits to a number, the most significant first, after the digits already read. -/
def digitsValue (base : Nat) : List Char → Nat → Option Nat
  | [], n => some n
  | c :: cs, n =>
    match digitValue c with
    | none => none
    | some v => if v < base then digitsValue base cs (base * n + v) else none

/-- A number: decimal, or `0x` and hexadecimal digits. -/
def parseNumber : List Char → Option Nat
  | [] => none
  | ['0', 'x'] => none
  | '0' :: 'x' :: cs => digitsValue 16 cs 0
  | cs => digitsValue 10 cs 0

/-- The operands: numbers separated by commas; no text is no operand. -/
def parseOperands (cs : List Char) : Option (List Nat) :=
  if trimBlanks cs = [] then some [] else (cs.splitOn ',').mapM fun t => parseNumber (trimBlanks t)

/-- The command with a mnemonic (in capitals) and operands, where each is in its range (the table of R69). -/
def assembleCommand (name : List Char) (ops : List Nat) : Option Instr :=
  match ops with
  | [] =>
    if name = ['N', 'O', 'P'] then some .nop
    else if name = ['C', 'L', 'R'] then some .clr
    else none
  | [a] =>
    if name = ['R', 'D', 'B'] ∧ a ≤ 12 then some (.rdb (BitVec.ofNat 4 a))
    else if name = ['E', 'X', 'T'] ∧ a ≤ 7 then some (.ext (BitVec.ofNat 3 a))
    else if name = ['S', 'C', 'L'] ∧ a ≤ 7 then some (.scl (BitVec.ofNat 3 a))
    else none
  | [a, b] =>
    if name = ['W', 'R', 'B'] ∧ a ≤ 12 ∧ b ≤ 255 then some (.wrb (BitVec.ofNat 4 a) (BitVec.ofNat 8 b))
    else if name = ['I', 'N', 'S'] ∧ a ≤ 7 ∧ b ≤ 65535 then some (.ins (BitVec.ofNat 3 a) (BitVec.ofNat 16 b))
    else none
  | _ => none

/-- One line of assembler text (R69). DESIGN CHOICE (log 17): a line is one command of R69's table. R70 gives the pseudo-commands
a textual form and does not say whether a line may be one, and here LOADBUF, DECODE, SCALEALL, ENCODE and DUMP lines are
refused: their expansions are Machine/Pseudo.lean. -/
def assembleLine (line : List Char) : AsmLine :=
  let text := trimBlanks (line.takeWhile (· ≠ ';'))
  if text = [] then .blank
  else
    let name := (text.takeWhile fun c => !isBlank c).map Char.toUpper
    match parseOperands (text.dropWhile fun c => !isBlank c) with
    | none => .refused
    | some ops =>
      match assembleCommand name ops with
      | none => .refused
      | some i => .command i

end Sys2Proof.Machine
end

