-- ==== Sys2Proof/Machine/Pseudo.lean ====
section
/-!
DEFINITION. The pseudo-commands of rule R70 of 30_encoding.md: each is its expansion and has no other meaning.
-/
namespace Sys2Proof.Machine

/-- LOADBUF b0, …, b12: WRB 0, b0 ; … ; WRB 12, b12. -/
def loadBufCommands (bytes : Vector Byte 13) : List Instr :=
  (List.finRange 13).map fun j => .wrb (BitVec.ofNat 4 j.val) (bytes.get j)

/-- DECODE: EXT 0 ; … ; EXT 7. -/
def decodeCommands : List Instr := (List.finRange 8).map fun i => .ext (BitVec.ofNat 3 i.val)

/-- SCALEALL: SCL 0 ; … ; SCL 7. -/
def scaleAllCommands : List Instr := (List.finRange 8).map fun i => .scl (BitVec.ofNat 3 i.val)

/-- ENCODE (i1, v1), …, (ik, vk): CLR ; INS i1, v1 ; … ; INS ik, vk. -/
def encodeCommands (writes : List (BitVec 3 × InsValue)) : List Instr :=
  .clr :: writes.map fun w => .ins w.1 w.2

/-- DUMP: RDB 0 ; … ; RDB 12. -/
def dumpCommands : List Instr := (List.finRange 13).map fun j => .rdb (BitVec.ofNat 4 j.val)

end Sys2Proof.Machine
end

