-- ==== Sys2Proof/Machine/Ports.lean ====
section
/-!
DEFINITION. The output ports (rules R29 and R30 of 10_state.md): functions of the registers alone.
-/
namespace Sys2Proof.Machine

structure Outputs where
  bufQ   : Buffer
  /-- field_q0 .. field_q7, index 0 first: the parallel decode view. -/
  fieldQ : Vector RawField 8
  resQ   : Result
  ovfQ   : Bool
  illQ   : Bool
  deriving DecidableEq, Repr

/-- buf_q = BUF, field_qi = Field(i), res_q = RES, ovf_q = OVF, ill_q = ILL (R30). -/
def State.outputs (s : State) : Outputs :=
  { bufQ := s.buf
    fieldQ := #v[fieldOf s.buf 0, fieldOf s.buf 1, fieldOf s.buf 2, fieldOf s.buf 3,
                 fieldOf s.buf 4, fieldOf s.buf 5, fieldOf s.buf 6, fieldOf s.buf 7]
    resQ := s.res
    ovfQ := s.ovf
    illQ := s.ill }

end Sys2Proof.Machine
end

