-- ==== Sys2Proof/Machine/Run.lean ====
section
/-!
DEFINITION. Runs and their observation (rule R150 of 70_reset_and_hazards.md).
-/
namespace Sys2Proof.Machine

/-- n rising edges. -/
def runEdges : Nat → State → Host.Outcome State Fault Refusal
  | 0, s => .next s
  | n + 1, s =>
    match step s with
    | .next t => runEdges n t
    | .fault f => .fault f
    | .refused r => .refused r

/-- The run over a list of edge inputs: all of them presented, one after the other, and nothing after them. -/
def runInputs (es : List Edge) (s : State) : Host.Outcome State Fault Refusal := runEdges es.length (s.withPending es)

/-- The edge inputs of a sequence of commands, one per rising edge. -/
def presentAll (is : List Instr) : List Edge := is.map fun i => Edge.command (encode i)

/-- The next edge performs a command: rst = 0 and cmd_valid = 1, after the first reset (R124 of 60_exceptions.md). -/
def State.performsCommand (s : State) : Bool :=
  match s.phase with
  | .powerUp _ => false
  | .running _ => !s.nextEdge.rst && s.nextEdge.cmdValid

/-- The observation of n edges: the port values just after each performing edge (R150). DESIGN CHOICE (log 18): R150's run has one
reset, at its start, and does not say whether a later reset ends the run or starts another. Here a reset edge gives no entry, and
the observation goes on in the same list after it; edges before the first reset give no entry either. -/
def observe : Nat → State → List Outputs
  | 0, _ => []
  | n + 1, s =>
    match step s with
    | .next t => if s.performsCommand then t.outputs :: observe n t else observe n t
    | .fault _ => []
    | .refused _ => []

/-- The observation of a command sequence, one command per edge. -/
def observeCommands (is : List Instr) (s : State) : List Outputs := observe is.length (s.withPending (presentAll is))

end Sys2Proof.Machine
end

