-- ==== Sys2Proof/Safety.lean ====
section
/-!
DEFINITION. What counts as a safe run, in the terms claims use. Nothing stops the BFC (R120 to R125 of 60_exceptions.md), so
safety is what the two status bits report.
-/
namespace Sys2Proof.Safety

open Sys2Proof Sys2Proof.Machine

/-- No illegal command is on record. 93_implementation_defined.md I4: treat the sticky ILL = 1 as a recorded fault that
refutes the observation (log 7). -/
def Clean (s : State) : Prop := s.ill = false

/-- The host presents only legal words, and no reset, over these edges. -/
def LegalInputs (es : List Edge) : Prop := ∀ e ∈ es, e.rst = false ∧ (e.cmdValid = true → legal e.cmd = true)

/-- The precondition `value < 8192` of the source (R24 of 10_state.md, R148 of 70_reset_and_hazards.md) on a command. -/
def InRange : Instr → Prop
  | .ins _ v => v.toNat < 8192
  | _ => True

/-- What RES can hold once the BFC has been reset: a zero-extended byte or field, or a scaled field (R22 of 10_state.md). -/
def ResultLegal (s : State) : Prop :=
  match s.phase with
  | .powerUp _ => True
  | .running _ => s.res.toNat < 8192 ∨ ∃ r : RawField, s.res = physicalValue r

end Sys2Proof.Safety
end

