-- ==== Sys2Proof/Certificates/Slice0/Obligations.lean ====
section
/-!
DEFINITION. The statements for the provers. Each docstring names the rule of spec/ the statement formalises, or, where it rests
on a convention of the model or on a sentence the spec marks as derived, that log entry or sentence.
-/

open Sys2Proof Sys2Proof.Machine Sys2Proof.Safety

/-! ### Encoding (30_encoding.md) -/

/-- Derived from R62, R64 and R69: no bit of an operand is dropped. -/
def Obligations.DecodeOfEncodeIsIdentity : Prop :=
  ∀ i : Instr, i.wf = true → decode (encode i) = .ok i

/-- Derived from R64, R66 and R69: every word that decodes has one meaning, and the encoder writes that word. -/
def Obligations.EncodeOfDecodeIsIdentity : Prop :=
  ∀ (c : Word) (i : Instr), decode c = .ok i → i.wf = true ∧ encode i = c

/-- R66: the legality check, as the rule writes it, is `legal`; a word passes it exactly when it decodes; it fails for one
of the three reasons; and all three have the effect of R121. -/
def Obligations.LegalityCheckIsTheDecoder : Prop :=
  ∀ c : Word,
    (legal c = true ↔
      (c &&& 0xFFFFFFFF#32 = 0x00000000#32 ∨
       c &&& 0xFFFFFFFF#32 = 0x00000001#32 ∨
       (c &&& 0xFF00F0FF#32 = 0x00000002#32 ∧ (c.extractLsb' 8 4).toNat ≤ 12) ∨
       (c &&& 0xFFFFF0FF#32 = 0x00000003#32 ∧ (c.extractLsb' 8 4).toNat ≤ 12) ∨
       c &&& 0xFFFFFF8F#32 = 0x00000004#32 ∨
       c &&& 0xFFFFFF8F#32 = 0x00000005#32 ∨
       c &&& 0x0000FF8F#32 = 0x00000006#32)) ∧
    (legal c = true ↔ ∃ i, decode c = .ok i) ∧
    (legal c = false ↔
      (7 ≤ (c.extractLsb' 0 4).toNat ∨
       ((c.extractLsb' 0 4 = 0x0#4 ∨ c.extractLsb' 0 4 = 0x1#4) ∧ c.extractLsb' 4 28 ≠ 0) ∨
       (c.extractLsb' 0 4 = 0x2#4 ∧
         (c.extractLsb' 4 4 ≠ 0 ∨ c.extractLsb' 12 4 ≠ 0 ∨ c.extractLsb' 24 8 ≠ 0)) ∨
       (c.extractLsb' 0 4 = 0x3#4 ∧ (c.extractLsb' 4 4 ≠ 0 ∨ c.extractLsb' 12 20 ≠ 0)) ∨
       ((c.extractLsb' 0 4 = 0x4#4 ∨ c.extractLsb' 0 4 = 0x5#4) ∧
         (c.extractLsb' 7 1 ≠ 0 ∨ c.extractLsb' 8 24 ≠ 0)) ∨
       (c.extractLsb' 0 4 = 0x6#4 ∧ (c.extractLsb' 7 1 ≠ 0 ∨ c.extractLsb' 8 8 ≠ 0)) ∨
       ((c.extractLsb' 0 4 = 0x2#4 ∨ c.extractLsb' 0 4 = 0x3#4) ∧ 13 ≤ (c.extractLsb' 8 4).toNat))) ∧
    (legal c = false → ∀ (s : State) (k : Nat) (es : List Edge),
      s.phase = .running k → s.pending = Edge.command c :: es →
      step s = .next { s with ill := true, phase := .running (k + 1), pending := es })

/-- Derived from R64's closing sentence: no word matches the patterns of two rows. -/
def Obligations.NoWordMatchesTwoRows : Prop :=
  opcodeTable.Pairwise fun r t => ∀ c : Word, ¬ (rowMatches r c = true ∧ rowMatches t c = true)

/-- R65: whatever its other bits, a word with a reserved opcode is illegal, and performing it sets ILL and changes no other
register: it is no hint. -/
def Obligations.ReservedOpcodesAreIllegal : Prop :=
  ∀ (c : Word), 7 ≤ (c.extractLsb' 0 4).toNat →
    legal c = false ∧
    ∀ (s : State) (k : Nat) (es : List Edge), s.phase = .running k → s.pending = Edge.command c :: es →
      step s = .next { s with ill := true, phase := .running (k + 1), pending := es }

/-- A sanity statement: the worked words of R71 (which the spec marks as derived from R64 and R66). -/
def Obligations.WorkedWordsDecode : Prop :=
  decode 0x00000000#32 = .ok .nop ∧
  decode 0x00000001#32 = .ok .clr ∧
  decode 0x00000004#32 = .ok (.ext 0) ∧
  decode 0x00000075#32 = .ok (.scl 7) ∧
  decode 0x00000C03#32 = .ok (.rdb 12) ∧
  decode 0x00370002#32 = .ok (.wrb 0 0x37) ∧
  decode 0x03370006#32 = .ok (.ins 0 823) ∧
  decode 0x00050016#32 = .ok (.ins 1 5) ∧
  decode 0x20000006#32 = .ok (.ins 0 8192) ∧
  legal 0x00000007#32 = false ∧
  legal 0x00000D03#32 = false ∧
  legal 0x00000084#32 = false ∧
  legal 0x00010004#32 = false ∧
  legal 0x01000002#32 = false ∧
  legal 0x00000010#32 = false

/-- Derived from R69: "An assembler refuses an operand outside its range; it never encodes an illegal word." The last four
clauses are concrete lines, and there the statement rests on the model's choice (log 17) of what R69 leaves open: where blanks
may stand or be left out around the mnemonic, the operands, the commas and the comment. -/
def Obligations.AssemblerNeverEncodesAnIllegalWord : Prop :=
  (∀ (line : List Char) (i : Instr), assembleLine line = .command i → i.wf = true ∧ legal (encode i) = true) ∧
  assembleLine ['i', 'n', 's', ' ', '1', ',', ' ', '8', '1', '9', '2', ' ', ';', 'x'] = .command (.ins 1 8192) ∧
  assembleLine ['W', 'R', 'B', ' ', '1', '2', ',', '0', 'x', 'C', '3'] = .command (.wrb 12 0xC3) ∧
  assembleLine ['R', 'D', 'B', ' ', '1', '3'] = .refused ∧
  assembleLine ['E', 'x', 't', ' ', '0', 'x', '7'] = .command (.ext 7)

/-! ### The step (10_state.md, 60_exceptions.md, 70_reset_and_hazards.md) -/

/-- Derived from R11 and R31: a presented word that decodes is run by exec, with the command index advanced by 1 and the edge
taken off the inputs. -/
def Obligations.StepRunsTheDecodedInstruction : Prop :=
  ∀ (s : State) (k : Nat) (c : Word) (es : List Edge) (i : Instr),
    s.phase = .running k → s.pending = Edge.command c :: es → decode c = .ok i →
    step s = exec i { s with phase := .running (k + 1), pending := es }

/-- R121: an illegal command sets ILL and changes no other register; it is consumed, and the next command is performed
normally. Nothing of the word is kept: the next state does not depend on it. -/
def Obligations.IllegalCommandSetsIllAlone : Prop :=
  ∀ (s : State) (k : Nat) (c : Word) (es : List Edge),
    s.phase = .running k → s.pending = Edge.command c :: es → legal c = false →
    step s = .next { s with ill := true, phase := .running (k + 1), pending := es } ∧
    ∀ (c' : Word) (es' : List Edge) (i : Instr), es = Edge.command c' :: es' → decode c' = .ok i →
      runEdges 2 s = exec i { s with ill := true, phase := .running (k + 2), pending := es' }

/-- R33: an idle edge keeps every register, whatever is on cmd. -/
def Obligations.IdleEdgeKeepsEveryRegister : Prop :=
  ∀ (s : State) (k : Nat) (e : Edge) (es : List Edge),
    s.phase = .running k → s.pending = e :: es → e.rst = false → e.cmdValid = false →
    step s = .next { s with pending := es }

/-- R68: at any edge but one with cmd_valid = 1 and rst = 0, the bits of cmd have no effect. -/
def Obligations.CmdPortIgnoredUnlessPerformed : Prop :=
  ∀ (s : State) (r v : Bool) (c c' : Word) (es : List Edge), ¬ (v = true ∧ r = false) →
    step { s with pending := { rst := r, cmdValid := v, cmd := c } :: es } =
    step { s with pending := { rst := r, cmdValid := v, cmd := c' } :: es }

/-- R141: reset wins over whatever is on the command port, in every state, and the command is not retried: the inputs after
the edge are as they were. -/
def Obligations.ResetWinsOverACommand : Prop :=
  ∀ (s : State) (e : Edge) (es : List Edge), s.pending = e :: es → e.rst = true →
    step s = .next { buf := 0, res := 0, ovf := false, ill := false, phase := .running 0, pending := es }

/-- R140: one edge with rst = 1 or several set BUF, RES, OVF and ILL to 0, from any state; CLR clears BUF alone. -/
def Obligations.ResetSetsEveryRegisterToZero : Prop :=
  (∀ (es : List Edge) (s : State), es ≠ [] → (∀ e ∈ es, e.rst = true) →
    runInputs es s =
      .next { buf := 0, res := 0, ovf := false, ill := false, phase := .running 0, pending := [] }) ∧
  (∀ s : State, exec .clr s = .next { s with buf := 0 })

/-- Derived from R140, R144 and R145: whatever was presented before, from whatever state (also one that was never reset),
a reset edge leaves the reset state, with the inputs after it still to come. -/
def Obligations.ResetErasesTheHistory : Prop :=
  ∀ (s : State) (es fs : List Edge) (e : Edge), e.rst = true →
    runEdges (es.length + 1) { s with pending := es ++ e :: fs } = .next { State.reset with pending := fs }

/-- The model's choice (log 4), where R144 leaves the registers unspecified: before the first reset, an edge without reset
leaves fresh free values of Config in the registers, whatever the inputs. It holds for every value they may have. -/
def Obligations.EdgeBeforeTheFirstResetLeavesFreeValues : Prop :=
  ∀ (s : State) (n : Nat) (e : Edge) (es : List Edge),
    s.phase = .powerUp n → s.pending = e :: es → e.rst = false →
    step s = .next { buf := Config.powerUpBuf (n + 1), res := Config.powerUpRes (n + 1),
                     ovf := Config.powerUpOvf (n + 1), ill := Config.powerUpIll (n + 1),
                     phase := .powerUp (n + 1), pending := es }

/-- The model's choice (log 2), in the light of R33 and R150: after the last listed input the edges are idle. -/
def Obligations.EdgesAfterTheLastInputAreIdle : Prop :=
  ∀ (s : State) (k n : Nat), s.phase = .running k → s.pending = [] → runEdges n s = .next s

/-- Derived from R120 and R142: at every edge, from every state, the BFC goes on; nothing stalls and nothing stops it. -/
def Obligations.EveryEdgeCompletes : Prop :=
  ∀ (s : State) (n : Nat), ∃ t, runEdges n s = .next t ∧ t.pending = s.pending.drop n

/-- R31: the command index starts at 0 after a reset edge and moves by exactly 1 for every performed command, legal or
illegal, and never otherwise. -/
def Obligations.CommandIndexCountsPerformedCommands : Prop :=
  (∀ (s : State) (e : Edge) (es : List Edge), s.pending = e :: es → e.rst = true →
    ∃ t, step s = .next t ∧ t.phase = .running 0) ∧
  (∀ (es : List Edge) (s : State) (k : Nat), s.phase = .running k → (∀ e ∈ es, e.rst = false) →
    ∃ t, runInputs es s = .next t ∧ t.phase = .running (k + (es.filter (·.cmdValid)).length))

/-- R25: after a run of edges without reset, ILL says whether it was set before or some performed command was illegal; from
the reset state, whether some command since the reset was illegal. -/
def Obligations.IllIsStickyAndRecordsEveryIllegalCommand : Prop :=
  ∀ (es : List Edge) (s : State) (k : Nat), s.phase = .running k → (∀ e ∈ es, e.rst = false) →
    ∃ t, runInputs es s = .next t ∧ t.ill = (s.ill || es.any fun e => e.cmdValid && !legal e.cmd)

/-- Derived from R24, R113 and R127: after a run of edges without reset, OVF is what the last legal INS among them says of
its value, and what it was before if there was none. -/
def Obligations.OvfReportsTheLastIns : Prop :=
  ∀ (es : List Edge) (s : State) (k : Nat), s.phase = .running k → (∀ e ∈ es, e.rst = false) →
    ∃ t, runInputs es s = .next t ∧
      t.ovf = es.foldl (fun o e =>
        if e.cmdValid = true ∧ e.cmd &&& 0x0000FF8F#32 = 0x00000006#32
        then decide (8192 ≤ (e.cmd.extractLsb' 16 16).toNat) else o) s.ovf

/-- R28: two runs over the same inputs from states that differ in OVF and ILL alone agree on BUF, RES and the command index
at their ends; and each status bit has either been given one and the same value in both, or is in both what it was. -/
def Obligations.StatusBitsInfluenceNoCommand : Prop :=
  ∀ (es : List Edge) (s : State) (k : Nat) (o i : Bool), s.phase = .running k →
    ∃ t u, runInputs es s = .next t ∧ runInputs es { s with ovf := o, ill := i } = .next u ∧
      t.buf = u.buf ∧ t.res = u.res ∧ t.phase = u.phase ∧
      (t.ovf = u.ovf ∨ (t.ovf = s.ovf ∧ u.ovf = o)) ∧ (t.ill = u.ill ∨ (t.ill = s.ill ∧ u.ill = i))

/-- Derived from the 'written by' column of the table of R20: what may change each register. -/
def Obligations.RegistersChangeOnlyAsTheTableSays : Prop :=
  ∀ (s t : State) (k : Nat), s.phase = .running k → step s = .next t →
    (t.buf ≠ s.buf → s.nextEdge.rst = true ∨ (s.nextEdge.cmdValid = true ∧
      ∃ i, decode s.nextEdge.cmd = .ok i ∧ (i = .clr ∨ (∃ j d, i = .wrb j d) ∨ ∃ f v, i = .ins f v))) ∧
    (t.res ≠ s.res → s.nextEdge.rst = true ∨ (s.nextEdge.cmdValid = true ∧
      ∃ i, decode s.nextEdge.cmd = .ok i ∧ ((∃ j, i = .rdb j) ∨ (∃ f, i = .ext f) ∨ ∃ f, i = .scl f))) ∧
    (t.ovf ≠ s.ovf → s.nextEdge.rst = true ∨ (s.nextEdge.cmdValid = true ∧
      ∃ f v, decode s.nextEdge.cmd = .ok (.ins f v))) ∧
    (t.ill ≠ s.ill → s.nextEdge.rst = true ∨ (s.nextEdge.cmdValid = true ∧ legal s.nextEdge.cmd = false))

/-- Derived from R22, R83, R90, R100 and R140: once the BFC has been reset, RES holds a zero-extended byte or field or a
scaled field, and every step, from every state where this holds, keeps it so. -/
def Obligations.EveryStepKeepsTheResultLegal : Prop :=
  ∀ s t : State, ResultLegal s → step s = .next t → ResultLegal t

/-- Derived from R32 and R144: that invariant holds right after reset and at power-up. -/
def Obligations.ResultIsLegalAtReset : Prop :=
  ResultLegal State.reset ∧ ResultLegal State.powerUp

/-- Derived from R33 and R150: the idle edges between the commands of a run change neither its observation nor its end. -/
def Obligations.IdleEdgesChangeNoObservation : Prop :=
  ∀ (es : List Edge) (s : State) (k : Nat), s.phase = .running k → (∀ e ∈ es, e.rst = false) →
    observe es.length { s with pending := es } =
      observe (es.filter (·.cmdValid)).length { s with pending := es.filter (·.cmdValid) } ∧
    runInputs es s = runInputs (es.filter (·.cmdValid)) s

/-- Derived from R50, which the spec marks as derived: performing the same command twice leaves the same state as performing
it once. R50 says it of legal commands. The statement ranges over every instruction term, and for a WRB or RDB with a byte index
of 13 to 15 it rests on the model's convention (log 8) that exec takes IllegalCommand there, as R82, R83 and R121 have it of such
a word. -/
def Obligations.CommandsAreIdempotent : Prop :=
  ∀ (i : Instr) (s : State), ∃ t, exec i s = .next t ∧ exec i t = .next t

/-! ### The layout of the buffer and the ports (20_memory.md, 10_state.md, 41_extract.md) -/

/-- R41 and R42: little-endian bytes, which make up the whole buffer; bit n of the buffer is bit n mod 8 of byte n / 8. -/
def Obligations.BytesTileTheBuffer : Prop :=
  ∀ b : Buffer,
    (∀ j < 13, (byteOf b j).toNat = b.toNat / 2 ^ (8 * j) % 2 ^ 8) ∧
    b.toNat = ((List.range 13).map fun j => (byteOf b j).toNat * 2 ^ (8 * j)).sum ∧
    (∀ n < 104, b.getLsbD n = (byteOf b (n / 8)).getLsbD (n % 8))

/-- R43: field i is bits 13i .. 13i+12, bit k of it is buffer bit 13i+k, and the eight fields make up the whole buffer, with
no padding. -/
def Obligations.FieldsTileTheBuffer : Prop :=
  ∀ b : Buffer,
    (∀ i < 8, (fieldOf b i).toNat = b.toNat / 2 ^ (13 * i) % 2 ^ 13) ∧
    (∀ i < 8, ∀ k < 13, (fieldOf b i).getLsbD k = b.getLsbD (13 * i + k)) ∧
    b.toNat = ((List.range 8).map fun i => (fieldOf b i).toNat * 2 ^ (13 * i)).sum

/-- Derived from R91, which the spec marks as derived: the byte-composed form of a field read agrees with the bit form. -/
def Obligations.ByteComposedFieldIsTheField : Prop :=
  ∀ (b : Buffer) (i : Nat), i < 8 → fieldByBytes b i = fieldOf b i

/-- R30: every output port is a function of the registers alone: the ports show the registers, field_qi shows bits
13i .. 13i+12 of BUF, and no input reaches them. The pair STATUS of R23 is {ILL, OVF}. -/
def Obligations.PortsShowTheRegisters : Prop :=
  ∀ s : State,
    s.outputs.bufQ = s.buf ∧ s.outputs.resQ = s.res ∧ s.outputs.ovfQ = s.ovf ∧ s.outputs.illQ = s.ill ∧
    (∀ (i : Nat) (h : i < 8), (s.outputs.fieldQ[i]).toNat = s.buf.toNat / 2 ^ (13 * i) % 2 ^ 13) ∧
    (∀ (p : Phase) (es : List Edge), ({ s with phase := p, pending := es } : State).outputs = s.outputs) ∧
    (statusPair s).getLsbD 0 = s.ovf ∧ (statusPair s).getLsbD 1 = s.ill

/-! ### The buffer commands (40_buffer.md) -/

/-- R80 and R67: NOP changes nothing, and performing it advances the host's command index alone; it is exactly the word 0; a
word with opcode 0 and any other bit set raises IllegalCommand. -/
def Obligations.NopDoesNothing : Prop :=
  (∀ s : State, exec .nop s = .next s) ∧
  (∀ (s : State) (k : Nat) (es : List Edge), s.phase = .running k → s.pending = Edge.command 0x00000000#32 :: es →
    step s = .next { s with phase := .running (k + 1), pending := es }) ∧
  (∀ c : Word, decode c = .ok .nop ↔ c = 0x00000000#32) ∧
  (∀ (s : State) (k : Nat) (c : Word) (es : List Edge), s.phase = .running k → s.pending = Edge.command c :: es →
    c.extractLsb' 0 4 = 0x0#4 → c.extractLsb' 4 28 ≠ 0 →
    step s = .next { s with ill := true, phase := .running (k + 1), pending := es })

/-- R81: CLR zeroes all 104 bits of BUF and changes nothing else; it is exactly the word 1; a word with opcode 1 and any
other bit set raises IllegalCommand. -/
def Obligations.ClrZeroesTheBuffer : Prop :=
  (∀ s : State, exec .clr s = .next { s with buf := 0 }) ∧
  (∀ c : Word, decode c = .ok .clr ↔ c = 0x00000001#32) ∧
  (∀ (s : State) (k : Nat) (c : Word) (es : List Edge), s.phase = .running k → s.pending = Edge.command c :: es →
    c.extractLsb' 0 4 = 0x1#4 → c.extractLsb' 4 28 ≠ 0 →
    step s = .next { s with ill := true, phase := .running (k + 1), pending := es })

/-- R82: WRB j, d writes byte j with d and leaves the other twelve bytes and every other register unchanged; with a byte
index of 13 to 15 or a nonzero unused field the word raises IllegalCommand. -/
def Obligations.WrbWritesOneByte : Prop :=
  (∀ (s : State) (j : BitVec 4) (d : Byte), j.toNat ≤ 12 →
    ∃ b : Buffer, exec (.wrb j d) s = .next { s with buf := b } ∧
      b = (s.buf &&& ~~~(0xFF#104 <<< (8 * j.toNat))) ||| (d.setWidth 104 <<< (8 * j.toNat)) ∧
      byteOf b j.toNat = d ∧ ∀ m < 13, m ≠ j.toNat → byteOf b m = byteOf s.buf m) ∧
  (∀ (s : State) (k : Nat) (c : Word) (es : List Edge), s.phase = .running k → s.pending = Edge.command c :: es →
    c.extractLsb' 0 4 = 0x2#4 →
    (13 ≤ (c.extractLsb' 8 4).toNat ∨ c.extractLsb' 4 4 ≠ 0 ∨ c.extractLsb' 12 4 ≠ 0 ∨ c.extractLsb' 24 8 ≠ 0) →
    step s = .next { s with ill := true, phase := .running (k + 1), pending := es })

/-- R83: RDB j puts byte j, zero-extended, in RES and changes nothing else; with a byte index of 13 to 15 or a nonzero
unused field the word raises IllegalCommand, and RES is unchanged. -/
def Obligations.RdbReadsOneByte : Prop :=
  (∀ (s : State) (j : BitVec 4), j.toNat ≤ 12 →
    ∃ r : Result, exec (.rdb j) s = .next { s with res := r } ∧
      r.toNat = s.buf.toNat / 2 ^ (8 * j.toNat) % 2 ^ 8) ∧
  (∀ (s : State) (k : Nat) (c : Word) (es : List Edge), s.phase = .running k → s.pending = Edge.command c :: es →
    c.extractLsb' 0 4 = 0x3#4 →
    (13 ≤ (c.extractLsb' 8 4).toNat ∨ c.extractLsb' 4 4 ≠ 0 ∨ c.extractLsb' 12 20 ≠ 0) →
    step s = .next { s with ill := true, phase := .running (k + 1), pending := es })

/-- The model's convention (log 8) for instruction terms no legal word decodes to: a WRB or RDB with a byte index of 13 to 15
takes IllegalCommand in exec too, as the pseudocode of R82 and R83 does. -/
def Obligations.ByteIndexOutOfRangeRaisesIllegal : Prop :=
  ∀ (s : State) (j : BitVec 4) (d : Byte), 13 ≤ j.toNat →
    exec (.wrb j d) s = .next { s with ill := true } ∧ exec (.rdb j) s = .next { s with ill := true }

/-- Derived from R45, R46 and R149, which the spec marks as derived: WRB j can change exactly the fields that have a bit in
byte j; where byte j is shared, those are two. -/
def Obligations.WrbChangesExactlyTheFieldsOfItsByte : Prop :=
  ∀ (j : BitVec 4) (i : Nat), j.toNat ≤ 12 → i < 8 →
    ((∃ (s t : State) (d : Byte), exec (.wrb j d) s = .next t ∧ fieldOf t.buf i ≠ fieldOf s.buf i) ↔
      (13 * i ≤ 8 * j.toNat + 7 ∧ 8 * j.toNat ≤ 13 * i + 12))

/-- Derived from R70 and R82: LOADBUF b0, …, b12 leaves exactly those bytes in BUF and changes no other register. -/
def Obligations.LoadBufLoadsEveryByte : Prop :=
  ∀ (bytes : Vector Byte 13) (s : State) (k : Nat), s.phase = .running k →
    ∃ b : Buffer,
      runInputs (presentAll (loadBufCommands bytes)) s =
        .next { s with buf := b, phase := .running (k + 13), pending := [] } ∧
      ∀ j : Fin 13, byteOf b j.val = bytes.get j

/-- Derived from R70, R83 and R143: the res_q values a host samples after the commands of DUMP are the thirteen bytes, byte 0
first. -/
def Obligations.DumpReadsEveryByte : Prop :=
  ∀ (s : State) (k : Nat), s.phase = .running k →
    (observeCommands dumpCommands s).map (·.resQ) =
      (List.range 13).map fun j => (byteOf s.buf j).setWidth 64

/-! ### The field extractor (41_extract.md) -/

/-- R90: EXT i puts bits 13i .. 13i+12 of BUF, zero-extended, in RES and changes nothing else; with a nonzero unused field
the word raises IllegalCommand, and RES is unchanged. -/
def Obligations.ExtExtractsOneField : Prop :=
  (∀ (s : State) (i : BitVec 3),
    ∃ r : Result, exec (.ext i) s = .next { s with res := r } ∧
      r.toNat = s.buf.toNat / 2 ^ (13 * i.toNat) % 2 ^ 13) ∧
  (∀ (s : State) (k : Nat) (c : Word) (es : List Edge), s.phase = .running k → s.pending = Edge.command c :: es →
    c.extractLsb' 0 4 = 0x4#4 → (c.extractLsb' 7 1 ≠ 0 ∨ c.extractLsb' 8 24 ≠ 0) →
    step s = .next { s with ill := true, phase := .running (k + 1), pending := es })

/-- Derived from R70, R92 and R143: the res_q values a host samples after the commands of DECODE are the eight fields, index 0
first, and after those of SCALEALL their physical values. -/
def Obligations.DecodeReadsEveryField : Prop :=
  ∀ (s : State) (k : Nat), s.phase = .running k →
    (observeCommands decodeCommands s).map (·.resQ) =
      ((List.range 8).map fun i => (fieldOf s.buf i).setWidth 64) ∧
    (observeCommands scaleAllCommands s).map (·.resQ) =
      (List.range 8).map fun i => physicalValue (fieldOf s.buf i)

/-! ### The affine scaler (42_scale.md) -/

/-- Derived from R10: f64 is the binary64 value nearest to a rational, ties to the even significand: over the finite range, no
finite binary64 value is nearer, and one as near but different leaves f64's significand even. The sign clause says that the sign
bit is the rational's, and for the rational 0 it is the model's choice (log 10): f64 gives +0 there, where R10 gives +0 of an
exact zero difference only. -/
def Obligations.F64RoundsToNearestTiesToEven : Prop :=
  ∀ (n : Int) (d : Nat), 0 < d → n.natAbs ≤ (2 ^ 53 - 1) * 2 ^ 971 * d →
    exponentField (f64 n d) < 2047 ∧
    ((f64 n d).msb = true ↔ n < 0) ∧
    (∀ y : Result, exponentField y < 2047 →
      |valRat (f64 n d) - (n : ℚ) / (d : ℚ)| ≤ |valRat y - (n : ℚ) / (d : ℚ)|) ∧
    (∀ y : Result, exponentField y < 2047 →
      |valRat y - (n : ℚ) / (d : ℚ)| = |valRat (f64 n d) - (n : ℚ) / (d : ℚ)| →
      valRat y ≠ valRat (f64 n d) → significandOf (f64 n d) % 2 = 0)

/-- Derived from R10: f64 depends on the rational alone, not on the fraction that writes it; so multiplication and
subtraction are f64 of the exact product and difference, and an exact zero difference is +0. R10 says this of finite operands
and of rationals of magnitude below 2^1024. The statement ranges over all bit patterns and all fractions: beyond R10's range
(exponent field 2047, or 2^1024 and above), and in giving +0 to a rational 0 that is no difference, it states the model's
convention (log 10), on which no result of SCL depends. -/
def Obligations.F64OperationsRoundTheExactResult : Prop :=
  (∀ (n n' : Int) (d d' : Nat), 0 < d → 0 < d' → (n : ℚ) / (d : ℚ) = (n' : ℚ) / (d' : ℚ) → f64 n d = f64 n' d') ∧
  (∀ (a b : Result) (n : Int) (d : Nat), 0 < d → (n : ℚ) / (d : ℚ) = valRat a * valRat b → f64Mul a b = f64 n d) ∧
  (∀ (a b : Result) (n : Int) (d : Nat), 0 < d → (n : ℚ) / (d : ℚ) = valRat a - valRat b → f64Sub a b = f64 n d) ∧
  (∀ a b : Result, valRat a = valRat b → f64Sub a b = 0x0000000000000000#64)

/-- R101: the constants of the scaler, and that subtracting C_OFF equals adding -20.0. -/
def Obligations.ScalerConstants : Prop :=
  f64 1 20 = 0x3FA999999999999A#64 ∧ Config.scaleConstant = 0x3FA999999999999A#64 ∧
  valRat Config.scaleConstant = 3602879701896397 / 2 ^ 56 ∧
  valRat Config.scaleConstant = 1 / 20 + 1 / 360287970189639680 ∧
  f64 20 1 = 0x4034000000000000#64 ∧ Config.offsetConstant = 0x4034000000000000#64 ∧
  valRat Config.offsetConstant = 20 ∧
  ∀ p : Result, f64Sub p Config.offsetConstant =
    f64 (valNum p * (valDen 0xC034000000000000#64 : Int) + valNum 0xC034000000000000#64 * (valDen p : Int))
      (valDen p * valDen 0xC034000000000000#64)

/-- R100: SCL i puts in RES the bits of f64(r) times C_SCALE, rounded, minus C_OFF, rounded, where r is Field(i), and changes
nothing else; the corner values of the rule, +0.0 for r = 400 alone, and otherwise a normal number; with a nonzero unused
field the word raises IllegalCommand, and RES is unchanged. -/
def Obligations.SclScalesOneField : Prop :=
  (∀ (s : State) (i : BitVec 3),
    ∃ x : Result, exec (.scl i) s = .next { s with res := x } ∧
      (∀ r : Nat, r = s.buf.toNat / 2 ^ (13 * i.toNat) % 2 ^ 13 →
        x = f64Sub (f64Mul (f64 (r : Int) 1) 0x3FA999999999999A#64) 0x4034000000000000#64 ∧
        (r = 0 → x = 0xC034000000000000#64) ∧ (r = 399 → x = 0xBFA9999999999800#64) ∧
        (r = 400 → x = 0x0000000000000000#64) ∧ (r = 823 → x = 0x4035266666666668#64) ∧
        (r = 8191 → x = 0x407858CCCCCCCCCD#64) ∧
        (r ≠ 400 → 1 ≤ exponentField x ∧ exponentField x ≤ 2046))) ∧
  (∀ (s : State) (k : Nat) (c : Word) (es : List Edge), s.phase = .running k → s.pending = Edge.command c :: es →
    c.extractLsb' 0 4 = 0x5#4 → (c.extractLsb' 7 1 ≠ 0 ∨ c.extractLsb' 8 24 ≠ 0) →
    step s = .next { s with ill := true, phase := .running (k + 1), pending := es })

/-- Derived from R100 to R102 (R102 is derived in the spec, first item): over any two states, a larger field scales to a
larger value. -/
def Obligations.SclIsStrictlyIncreasing : Prop :=
  ∀ (s s' t t' : State) (i i' : BitVec 3), exec (.scl i) s = .next t → exec (.scl i') s' = .next t' →
    (fieldOf s.buf i.toNat).toNat < (fieldOf s'.buf i'.toNat).toNat → valRat t.res < valRat t'.res

/-- Derived from R100 to R104 (R102 is derived in the spec, second and third items; R104's range): the sign of every SCL
result, that it is +0.0 or a normal number, and its range. -/
def Obligations.SclResultsAreNormalAndInRange : Prop :=
  ∀ (s t : State) (i : BitVec 3), exec (.scl i) s = .next t →
    ((fieldOf s.buf i.toNat).toNat < 400 ↔ valRat t.res < 0) ∧
    ((fieldOf s.buf i.toNat).toNat = 400 ↔ t.res = 0x0000000000000000#64) ∧
    (400 < (fieldOf s.buf i.toNat).toNat ↔ 0 < valRat t.res) ∧
    (t.res = 0x0000000000000000#64 ∨
      (1 ≤ exponentField t.res ∧ exponentField t.res ≤ 2046 ∧
        -valRat 0xBFA9999999999800#64 ≤ |valRat t.res| ∧ |valRat t.res| ≤ valRat 0x407858CCCCCCCCCD#64)) ∧
    -20 ≤ valRat t.res

/-- Derived from R100 to R102 (R102 is derived in the spec, fourth item): no SCL result is further than 1/21990232555520 from
r/20 - 20, and field value 6144 is that far. -/
def Obligations.SclErrorBound : Prop :=
  (∀ (s t : State) (i : BitVec 3), exec (.scl i) s = .next t →
    |valRat t.res - ((fieldOf s.buf i.toNat).toNat / 20 - 20)| ≤ 1 / 21990232555520) ∧
  (∀ (s t : State) (i : BitVec 3), exec (.scl i) s = .next t → (fieldOf s.buf i.toNat).toNat = 6144 →
    |valRat t.res - (6144 / 20 - 20)| = 1 / 21990232555520)

/-- Derived from R102 (derived in the spec, last item) and C3 of 90_conflicts.md: the exact step between the results of
successive fields is within 1/21990232555520 of 1/20 and never equal to it, nor to C_SCALE. -/
def Obligations.SclStepIsNeverExact : Prop :=
  ∀ (s s' t t' : State) (i i' : BitVec 3), exec (.scl i) s = .next t → exec (.scl i') s' = .next t' →
    (fieldOf s'.buf i'.toNat).toNat = (fieldOf s.buf i.toNat).toNat + 1 →
    |valRat t'.res - valRat t.res - 1 / 20| ≤ 1 / 21990232555520 ∧
    valRat t'.res - valRat t.res ≠ 1 / 20 ∧ valRat t'.res - valRat t.res ≠ valRat Config.scaleConstant ∧
    f64Sub t'.res t.res ≠ Config.scaleConstant

/-- Derived from R102 (derived in the spec, fifth and sixth items): over the whole domain, how many of the 8192 results equal
the correctly rounded ideal f64(r/20 - 20), how many are one unit in the last place away, which are further, and how many
differ from the fused form. A sanity statement, evaluated. -/
def Obligations.ScalerRoundingCounts : Prop :=
  let scaled : Nat → Nat := fun r => (physicalValue (BitVec.ofNat 13 r)).toNat
  let ideal : Nat → Nat := fun r => (f64 ((r : Int) - 400) 20).toNat
  let fused : Nat → Nat := fun r => (f64 ((r : Int) * 3602879701896397 - 20 * 2 ^ 56) (2 ^ 56)).toNat
  let apart : Nat → Nat := fun r => (scaled r - ideal r) + (ideal r - scaled r)
  ((List.range 8192).countP fun r => apart r == 0) = 4872 ∧
  ((List.range 8192).countP fun r => apart r == 1) = 2996 ∧
  ((List.range 8192).countP fun r => 242 ≤ r && r ≤ 1676 && 2 ≤ apart r && apart r ≤ 410) = 324 ∧
  apart 399 = 410 ∧
  ((List.range 8192).countP fun r => scaled r != fused r) = 1266 ∧
  fused 400 = 0x3CD4000000000000

/-! ### The field packer (43_pack.md) -/

/-- R110 and R111: INS i, v clears the 13 bits of field i and ORs all of v in at bit 13i, dropping what falls at 104 and above;
OVF says whether v is 8192 or more; nothing else changes; with a nonzero unused field the word raises IllegalCommand. -/
def Obligations.InsPacksOneField : Prop :=
  (∀ (s : State) (i : BitVec 3) (v : InsValue),
    ∃ b : Buffer, exec (.ins i v) s = .next { s with buf := b, ovf := decide (8192 ≤ v.toNat) } ∧
      b.toNat = (s.buf.toNat - (s.buf.toNat / 2 ^ (13 * i.toNat) % 2 ^ 13) * 2 ^ (13 * i.toNat)) |||
        (v.toNat * 2 ^ (13 * i.toNat) % 2 ^ 104)) ∧
  (∀ (s : State) (k : Nat) (c : Word) (es : List Edge), s.phase = .running k → s.pending = Edge.command c :: es →
    c.extractLsb' 0 4 = 0x6#4 → (c.extractLsb' 7 1 ≠ 0 ∨ c.extractLsb' 8 8 ≠ 0) →
    step s = .next { s with ill := true, phase := .running (k + 1), pending := es })

/-- R112: after INS i, v, field i is v mod 8192; the bits v[15:13] are ORed into field i+1 where there is one, and dropped
for i = 7; every other field is unchanged. For v below 8192 that leaves field i+1 unchanged too. -/
def Obligations.InsSpillsIntoTheNextField : Prop :=
  ∀ (s : State) (i : BitVec 3) (v : InsValue),
    ∃ t, exec (.ins i v) s = .next t ∧
      (fieldOf t.buf i.toNat).toNat = v.toNat % 8192 ∧
      (i.toNat < 7 →
        (fieldOf t.buf (i.toNat + 1)).toNat = (fieldOf s.buf (i.toNat + 1)).toNat ||| (v.toNat / 8192)) ∧
      (∀ m < 8, m ≠ i.toNat → m ≠ i.toNat + 1 → fieldOf t.buf m = fieldOf s.buf m) ∧
      (v.toNat < 8192 → ∀ m < 8, m ≠ i.toNat → fieldOf t.buf m = fieldOf s.buf m)

/-- R113: every legal INS writes OVF, 1 exactly for v of 8192 or more, whether or not the spill changed anything and for field
7 too; OVF does not alter the write: the buffer written is the same from either value of OVF. -/
def Obligations.InsReportsOverflow : Prop :=
  ∀ (s : State) (i : BitVec 3) (v : InsValue) (o : Bool),
    ∃ t u, exec (.ins i v) s = .next t ∧ exec (.ins i v) { s with ovf := o } = .next u ∧
      (t.ovf = true ↔ 8192 ≤ v.toNat) ∧ (t.ovf = true ↔ v.extractLsb' 13 3 ≠ 0) ∧ u = t

/-- Derived from R115, which the spec marks as derived: INS changes only bytes of its field's span and, when it spills and
the field is not the last, the bytes of the three bits above it. -/
def Obligations.InsChangesOnlyTheBytesOfItsBits : Prop :=
  ∀ (s : State) (i : BitVec 3) (v : InsValue), ∃ t, exec (.ins i v) s = .next t ∧
    ∀ j < 13, byteOf t.buf j ≠ byteOf s.buf j →
      (13 * i.toNat ≤ 8 * j + 7 ∧ 8 * j ≤ 13 * i.toNat + 12) ∨
      (8192 ≤ v.toNat ∧ i.toNat ≤ 6 ∧ 13 * i.toNat + 13 ≤ 8 * j + 7 ∧ 8 * j ≤ 13 * i.toNat + 15)

/-- Derived from R114, first item (marked as derived in the spec): the fields of any buffer B, read by EXT and then written
back by CLR and eight INS in any order, give B again, whatever the buffer held before. -/
def Obligations.EncodeOfDecodedFieldsIsTheBuffer : Prop :=
  ∀ (s : State) (k : Nat) (b : Buffer) (order : List (BitVec 3)), s.phase = .running k →
    order.Perm [0, 1, 2, 3, 4, 5, 6, 7] →
    (∀ i : BitVec 3, exec (.ext i) { s with buf := b } =
      .next { s with buf := b, res := (fieldOf b i.toNat).setWidth 64 }) ∧
    runInputs (presentAll (encodeCommands (order.map fun i => (i, (fieldOf b i.toNat).setWidth 16)))) s =
      .next { s with buf := b, ovf := false, phase := .running (k + 9), pending := [] }

/-- Derived from R114, second and third items (marked as derived in the spec): CLR and eight INS of any eight field values, in
any order, leave a buffer whose fields EXT reads back; with a value of 8192 or more the order matters. -/
def Obligations.DecodeOfEncodedFieldsIsTheFields : Prop :=
  (∀ (s : State) (k : Nat) (f : BitVec 3 → RawField) (order : List (BitVec 3)), s.phase = .running k →
    order.Perm [0, 1, 2, 3, 4, 5, 6, 7] →
    ∃ t, runInputs (presentAll (encodeCommands (order.map fun i => (i, (f i).setWidth 16)))) s = .next t ∧
      ∀ i : BitVec 3, exec (.ext i) t = .next { t with res := (f i).setWidth 64 }) ∧
  (∀ (s : State) (k : Nat), s.phase = .running k →
    ∃ t u, runInputs (presentAll [.ins 0 8192, .ins 1 0]) s = .next t ∧ fieldOf t.buf 1 = 0 ∧
      runInputs (presentAll [.ins 1 0, .ins 0 8192]) s = .next u ∧ fieldOf u.buf 1 = 1)
end

