-- ==== Sys2Proof/Laws/Buffer.lean ====
section
/-!
SUPPORT. The two views of the buffer, bit by bit: what a byte read, a byte write, a field read and a pack do to buffer bit n.
Every claim about bytes and fields rests on these.
-/
namespace Sys2Proof.Machine

@[simp] theorem getLsbD_byteOf (b : Buffer) (j k : Nat) :
    (byteOf b j).getLsbD k = (decide (k < 8) && b.getLsbD (8 * j + k)) := by
  simp [byteOf]

@[simp] theorem getLsbD_fieldOf (b : Buffer) (i k : Nat) :
    (fieldOf b i).getLsbD k = (decide (k < 13) && b.getLsbD (13 * i + k)) := by
  simp [fieldOf]

/-- Bit n of the all-ones mask of width w, as a 104-bit number: the masks 0xFF and 0x1FFF of R82 and R111. -/
theorem getLsbD_ones (w n : Nat) (hw : w ≤ 104) :
    (BitVec.ofNat 104 (2 ^ w - 1)).getLsbD n = decide (n < w) := by
  rw [BitVec.getLsbD_ofNat, Nat.testBit_two_pow_sub_one]
  by_cases h : n < w
  · simp [h]; omega
  · simp [h]

theorem getLsbD_setByte (b : Buffer) (j n : Nat) (d : Byte) (hn : n < 104) :
    (setByte b j d).getLsbD n = if 8 * j ≤ n ∧ n < 8 * j + 8 then d.getLsbD (n - 8 * j) else b.getLsbD n := by
  have hm := getLsbD_ones 8 (n - 8 * j) (by omega)
  simp only [show (2 : Nat) ^ 8 - 1 = 0xFF from rfl] at hm
  unfold setByte
  simp only [BitVec.getLsbD_or, BitVec.getLsbD_and, BitVec.getLsbD_not, BitVec.getLsbD_shiftLeft, hm,
    BitVec.getLsbD_setWidth, hn, decide_true, Bool.true_and]
  by_cases h1 : n < 8 * j
  · simp [h1, show ¬ (8 * j ≤ n) by omega]
  · by_cases h2 : n < 8 * j + 8
    · simp [h1, h2, show 8 * j ≤ n by omega, show n - 8 * j < 8 by omega, show n - 8 * j < 104 by omega]
    · have : d.getLsbD (n - 8 * j) = false := BitVec.getLsbD_of_ge d _ (by omega)
      simp [h1, h2, this, show ¬ (n - 8 * j < 8) by omega]

/-- Bit n after pack: inside the span it is v's bit, in the three places above it v's bit is ORed in, elsewhere it is
kept (R111, R112 of 43_pack.md). -/
theorem getLsbD_pack (b : Buffer) (i n : Nat) (v : InsValue) (hn : n < 104) :
    (pack b i v).getLsbD n =
      if 13 * i ≤ n ∧ n < 13 * i + 13 then v.getLsbD (n - 13 * i)
      else (b.getLsbD n || (decide (13 * i ≤ n) && v.getLsbD (n - 13 * i))) := by
  have hm := getLsbD_ones 13 (n - 13 * i) (by omega)
  simp only [show (2 : Nat) ^ 13 - 1 = 0x1FFF from rfl] at hm
  unfold pack
  simp only [BitVec.getLsbD_or, BitVec.getLsbD_and, BitVec.getLsbD_not, BitVec.getLsbD_shiftLeft, hm,
    BitVec.getLsbD_setWidth, hn, decide_true, Bool.true_and]
  by_cases h1 : n < 13 * i
  · simp [h1, show ¬ (13 * i ≤ n) by omega]
  · by_cases h2 : n < 13 * i + 13
    · simp [h1, h2, show 13 * i ≤ n by omega, show n - 13 * i < 13 by omega, show n - 13 * i < 104 by omega]
    · simp [h1, h2, show 13 * i ≤ n by omega, show ¬ (n - 13 * i < 13) by omega, show n - 13 * i < 104 by omega]

/-- Thirteen bytes determine the buffer. -/
theorem buffer_ext_bytes {a b : Buffer} (h : ∀ j < 13, byteOf a j = byteOf b j) : a = b := by
  apply BitVec.eq_of_getLsbD_eq
  intro n hn
  have := congrArg (fun x => BitVec.getLsbD x (n % 8)) (h (n / 8) (by omega))
  simpa only [getLsbD_byteOf, Nat.mod_lt n (show 0 < 8 by decide), decide_true, Bool.true_and,
    show 8 * (n / 8) + n % 8 = n by omega] using this

/-- Eight fields determine the buffer: there is no padding (R43 of 20_memory.md). -/
theorem buffer_ext_fields {a b : Buffer} (h : ∀ i < 8, fieldOf a i = fieldOf b i) : a = b := by
  apply BitVec.eq_of_getLsbD_eq
  intro n hn
  have := congrArg (fun x => BitVec.getLsbD x (n % 13)) (h (n / 13) (by omega))
  simpa only [getLsbD_fieldOf, Nat.mod_lt n (show 0 < 13 by decide), decide_true, Bool.true_and,
    show 13 * (n / 13) + n % 13 = n by omega] using this

/-- A byte write to another byte leaves a byte alone. -/
theorem byteOf_setByte_other (b : Buffer) (d : Byte) {j k : Nat} (hk : k < 13) (hjk : k ≠ j) :
    byteOf (setByte b j d) k = byteOf b k := by
  apply BitVec.eq_of_getLsbD_eq
  intro n hn
  simp only [getLsbD_byteOf, hn, decide_true, Bool.true_and]
  rw [getLsbD_setByte _ _ _ _ (by omega), if_neg (by omega)]

/-- A byte read after a write to the same byte gives the datum. -/
theorem byteOf_setByte_same (b : Buffer) (d : Byte) {j : Nat} (hj : j < 13) : byteOf (setByte b j d) j = d := by
  apply BitVec.eq_of_getLsbD_eq
  intro n hn
  simp only [getLsbD_byteOf, hn, decide_true, Bool.true_and]
  rw [getLsbD_setByte _ _ _ _ (by omega), if_pos (by omega)]
  congr 1
  omega

end Sys2Proof.Machine
end

