-- ==== Sys2Proof/Laws/Decode.lean ====
section
/-!
SUPPORT. A command word is its fields: how the masks of R64 and the fields of R61 of 30_encoding.md come down to single bits.
-/
namespace Sys2Proof

/-- A word is its six fields, put together (R61). -/
theorem word_eq_fields (c : Word) : c =
    ((immOf c).setWidth 32 <<< 16) ||| ((z1Of c).setWidth 32 <<< 12) ||| ((biOf c).setWidth 32 <<< 8) |||
      ((z0Of c).setWidth 32 <<< 7) ||| ((fiOf c).setWidth 32 <<< 4) ||| (opOf c).setWidth 32 := by
  apply BitVec.eq_of_getLsbD_eq
  intro k hk
  interval_cases k <;> simp [immOf, z1Of, biOf, z0Of, fiOf, opOf]

/-- IMM is the datum of WRB and the bits above it. -/
theorem immOf_eq_datum (c : Word) :
    (immOf c).setWidth 32 <<< 16 = ((datumOf c).setWidth 32 <<< 16) ||| ((immHighOf c).setWidth 32 <<< 24) := by
  apply BitVec.eq_of_getLsbD_eq
  intro k hk
  interval_cases k <;> simp [immOf, datumOf, immHighOf]

/-- A masked comparison, bit by bit. -/
theorem masked_eq_iff (c m v : Word) :
    c &&& m = v ↔ ∀ k < 32, (c.getLsbD k && m.getLsbD k) = v.getLsbD k := by
  constructor
  · intro h k hk
    rw [← h]
    simp
  · intro h
    apply BitVec.eq_of_getLsbD_eq
    intro k hk
    simpa using h k hk

/-- A field comparison, bit by bit. -/
theorem field_eq_iff (c : Word) (a w : Nat) (v : BitVec w) :
    BitVec.extractLsb' a w c = v ↔ ∀ k < w, c.getLsbD (a + k) = v.getLsbD k := by
  constructor
  · intro h k hk
    rw [← h]
    simp [hk]
  · intro h
    apply BitVec.eq_of_getLsbD_eq
    intro k hk
    simpa [hk] using h k hk

end Sys2Proof
end

