-- ==== Sys2Proof/Laws/State.lean ====
section
/-!
SUPPORT. One lemma per field per update of the state, each true by rfl.
-/
namespace Sys2Proof.Machine

@[simp] theorem State.writeBuf_buf (s : State) (v : Buffer) : (s.writeBuf v).buf = v := rfl
@[simp] theorem State.writeBuf_res (s : State) (v : Buffer) : (s.writeBuf v).res = s.res := rfl
@[simp] theorem State.writeBuf_ovf (s : State) (v : Buffer) : (s.writeBuf v).ovf = s.ovf := rfl
@[simp] theorem State.writeBuf_ill (s : State) (v : Buffer) : (s.writeBuf v).ill = s.ill := rfl
@[simp] theorem State.writeBuf_phase (s : State) (v : Buffer) : (s.writeBuf v).phase = s.phase := rfl
@[simp] theorem State.writeBuf_pending (s : State) (v : Buffer) : (s.writeBuf v).pending = s.pending := rfl

@[simp] theorem State.writeRes_buf (s : State) (v : Result) : (s.writeRes v).buf = s.buf := rfl
@[simp] theorem State.writeRes_res (s : State) (v : Result) : (s.writeRes v).res = v := rfl
@[simp] theorem State.writeRes_ovf (s : State) (v : Result) : (s.writeRes v).ovf = s.ovf := rfl
@[simp] theorem State.writeRes_ill (s : State) (v : Result) : (s.writeRes v).ill = s.ill := rfl
@[simp] theorem State.writeRes_phase (s : State) (v : Result) : (s.writeRes v).phase = s.phase := rfl
@[simp] theorem State.writeRes_pending (s : State) (v : Result) : (s.writeRes v).pending = s.pending := rfl

@[simp] theorem State.writeOvf_buf (s : State) (b : Bool) : (s.writeOvf b).buf = s.buf := rfl
@[simp] theorem State.writeOvf_res (s : State) (b : Bool) : (s.writeOvf b).res = s.res := rfl
@[simp] theorem State.writeOvf_ovf (s : State) (b : Bool) : (s.writeOvf b).ovf = b := rfl
@[simp] theorem State.writeOvf_ill (s : State) (b : Bool) : (s.writeOvf b).ill = s.ill := rfl
@[simp] theorem State.writeOvf_phase (s : State) (b : Bool) : (s.writeOvf b).phase = s.phase := rfl
@[simp] theorem State.writeOvf_pending (s : State) (b : Bool) : (s.writeOvf b).pending = s.pending := rfl

@[simp] theorem State.writeIll_buf (s : State) (b : Bool) : (s.writeIll b).buf = s.buf := rfl
@[simp] theorem State.writeIll_res (s : State) (b : Bool) : (s.writeIll b).res = s.res := rfl
@[simp] theorem State.writeIll_ovf (s : State) (b : Bool) : (s.writeIll b).ovf = s.ovf := rfl
@[simp] theorem State.writeIll_ill (s : State) (b : Bool) : (s.writeIll b).ill = b := rfl
@[simp] theorem State.writeIll_phase (s : State) (b : Bool) : (s.writeIll b).phase = s.phase := rfl
@[simp] theorem State.writeIll_pending (s : State) (b : Bool) : (s.writeIll b).pending = s.pending := rfl

@[simp] theorem State.withPhase_buf (s : State) (p : Phase) : (s.withPhase p).buf = s.buf := rfl
@[simp] theorem State.withPhase_res (s : State) (p : Phase) : (s.withPhase p).res = s.res := rfl
@[simp] theorem State.withPhase_ovf (s : State) (p : Phase) : (s.withPhase p).ovf = s.ovf := rfl
@[simp] theorem State.withPhase_ill (s : State) (p : Phase) : (s.withPhase p).ill = s.ill := rfl
@[simp] theorem State.withPhase_phase (s : State) (p : Phase) : (s.withPhase p).phase = p := rfl
@[simp] theorem State.withPhase_pending (s : State) (p : Phase) : (s.withPhase p).pending = s.pending := rfl

@[simp] theorem State.withPending_buf (s : State) (es : List Edge) : (s.withPending es).buf = s.buf := rfl
@[simp] theorem State.withPending_res (s : State) (es : List Edge) : (s.withPending es).res = s.res := rfl
@[simp] theorem State.withPending_ovf (s : State) (es : List Edge) : (s.withPending es).ovf = s.ovf := rfl
@[simp] theorem State.withPending_ill (s : State) (es : List Edge) : (s.withPending es).ill = s.ill := rfl
@[simp] theorem State.withPending_phase (s : State) (es : List Edge) : (s.withPending es).phase = s.phase := rfl
@[simp] theorem State.withPending_pending (s : State) (es : List Edge) : (s.withPending es).pending = es := rfl

@[simp] theorem State.raiseIllegal_buf (s : State) : s.raiseIllegal.buf = s.buf := rfl
@[simp] theorem State.raiseIllegal_res (s : State) : s.raiseIllegal.res = s.res := rfl
@[simp] theorem State.raiseIllegal_ovf (s : State) : s.raiseIllegal.ovf = s.ovf := rfl
@[simp] theorem State.raiseIllegal_ill (s : State) : s.raiseIllegal.ill = true := rfl
@[simp] theorem State.raiseIllegal_phase (s : State) : s.raiseIllegal.phase = s.phase := rfl
@[simp] theorem State.raiseIllegal_pending (s : State) : s.raiseIllegal.pending = s.pending := rfl

@[simp] theorem State.resetRegisters_buf (s : State) : s.resetRegisters.buf = 0 := rfl
@[simp] theorem State.resetRegisters_res (s : State) : s.resetRegisters.res = 0 := rfl
@[simp] theorem State.resetRegisters_ovf (s : State) : s.resetRegisters.ovf = false := rfl
@[simp] theorem State.resetRegisters_ill (s : State) : s.resetRegisters.ill = false := rfl
@[simp] theorem State.resetRegisters_phase (s : State) : s.resetRegisters.phase = .running 0 := rfl
@[simp] theorem State.resetRegisters_pending (s : State) : s.resetRegisters.pending = s.pending := rfl

@[simp] theorem State.drawRegisters_buf (s : State) (n : Nat) : (s.drawRegisters n).buf = Config.powerUpBuf n := rfl
@[simp] theorem State.drawRegisters_res (s : State) (n : Nat) : (s.drawRegisters n).res = Config.powerUpRes n := rfl
@[simp] theorem State.drawRegisters_ovf (s : State) (n : Nat) : (s.drawRegisters n).ovf = Config.powerUpOvf n := rfl
@[simp] theorem State.drawRegisters_ill (s : State) (n : Nat) : (s.drawRegisters n).ill = Config.powerUpIll n := rfl
@[simp] theorem State.drawRegisters_phase (s : State) (n : Nat) : (s.drawRegisters n).phase = .powerUp n := rfl
@[simp] theorem State.drawRegisters_pending (s : State) (n : Nat) : (s.drawRegisters n).pending = s.pending := rfl

@[simp] theorem State.dropEdge_buf (s : State) : s.dropEdge.buf = s.buf := rfl
@[simp] theorem State.dropEdge_res (s : State) : s.dropEdge.res = s.res := rfl
@[simp] theorem State.dropEdge_ovf (s : State) : s.dropEdge.ovf = s.ovf := rfl
@[simp] theorem State.dropEdge_ill (s : State) : s.dropEdge.ill = s.ill := rfl
@[simp] theorem State.dropEdge_phase (s : State) : s.dropEdge.phase = s.phase := rfl
@[simp] theorem State.dropEdge_pending (s : State) : s.dropEdge.pending = s.pending.tail := rfl

end Sys2Proof.Machine
end

