-- ==== Sys2Proof/Laws/Exec.lean ====
section
/-!
SUPPORT. What a command can do, said once: the inversion of exec, and what each shared operation of an edge answers.
-/
namespace Sys2Proof.Machine

/-- The one thing a performed command does to the state: one of four register updates, or nothing. -/
theorem exec_cases {i : Instr} {s t : State} (h : exec i s = .next t) :
    (i = .nop ∧ t = s) ∨
    (i = .clr ∧ t = s.writeBuf 0) ∨
    (∃ j d, i = .wrb j d ∧ byteIndexLegal j = true ∧ t = s.writeBuf (setByte s.buf j.toNat d)) ∨
    (∃ j, i = .rdb j ∧ byteIndexLegal j = true ∧ t = s.writeRes ((byteOf s.buf j.toNat).setWidth 64)) ∨
    (∃ f, i = .ext f ∧ t = s.writeRes ((fieldOf s.buf f.toNat).setWidth 64)) ∨
    (∃ f, i = .scl f ∧ t = s.writeRes (physicalValue (fieldOf s.buf f.toNat))) ∨
    (∃ f v, i = .ins f v ∧ t = (s.writeBuf (pack s.buf f.toNat v)).writeOvf (overflows v)) ∨
    (i.wf = false ∧ t = s.raiseIllegal) := by
  cases i with
  | nop => simp only [exec, execNop] at h; cases h; simp
  | clr => simp only [exec, execClr] at h; cases h; simp
  | wrb j d =>
    simp only [exec, execWrb] at h
    split at h <;> cases h <;> simp_all [Instr.wf, byteIndexLegal]
  | rdb j =>
    simp only [exec, execRdb] at h
    split at h <;> cases h <;> simp_all [Instr.wf, byteIndexLegal]
  | ext f => simp only [exec, execExt] at h; cases h; simp
  | scl f => simp only [exec, execScl] at h; cases h; simp
  | ins f v => simp only [exec, execIns] at h; cases h; simp

/-- Every command completes (R120 of 60_exceptions.md): its next state differs from s in the four registers only. -/
theorem exec_next (i : Instr) (s : State) :
    ∃ t, exec i s = .next t ∧ t.phase = s.phase ∧ t.pending = s.pending := by
  cases i with
  | wrb j d => simp only [exec, execWrb]; split <;> exact ⟨_, rfl, rfl, rfl⟩
  | rdb j => simp only [exec, execRdb]; split <;> exact ⟨_, rfl, rfl, rfl⟩
  | nop | clr | ext _ | scl _ | ins _ _ => exact ⟨_, rfl, rfl, rfl⟩

/-- A performed word ends in a next state with the host's side untouched. -/
theorem performWord_next (c : Word) (s : State) :
    ∃ t, performWord c s = .next t ∧ t.phase = s.phase ∧ t.pending = s.pending := by
  unfold performWord
  split
  · exact exec_next _ s
  · exact ⟨_, rfl, rfl, rfl⟩

@[simp] theorem performEdge_rst {e : Edge} (s : State) (h : e.rst = true) :
    performEdge e s = .next s.resetRegisters := by
  simp [performEdge, h]

theorem performEdge_powerUp {e : Edge} {s : State} {n : Nat} (h : e.rst = false) (hp : s.phase = .powerUp n) :
    performEdge e s = .next (s.drawRegisters (n + 1)) := by
  simp [performEdge, h, hp]

theorem performEdge_idle {e : Edge} {s : State} {k : Nat} (h : e.rst = false) (hv : e.cmdValid = false)
    (hp : s.phase = .running k) : performEdge e s = .next s := by
  simp [performEdge, h, hv, hp]

theorem performEdge_command {e : Edge} {s : State} {k : Nat} (h : e.rst = false) (hv : e.cmdValid = true)
    (hp : s.phase = .running k) : performEdge e s = performWord e.cmd (s.withPhase (.running (k + 1))) := by
  simp [performEdge, h, hv, hp]

/-- Every edge ends in a next state, with the inputs after it untouched. -/
theorem performEdge_next (e : Edge) (s : State) : ∃ t, performEdge e s = .next t ∧ t.pending = s.pending := by
  cases hr : e.rst with
  | true => exact ⟨_, performEdge_rst s hr, rfl⟩
  | false =>
    cases hp : s.phase with
    | powerUp n => exact ⟨_, performEdge_powerUp hr hp, rfl⟩
    | running k =>
      cases hv : e.cmdValid with
      | false => exact ⟨_, performEdge_idle hr hv hp, rfl⟩
      | true =>
        obtain ⟨t, ht, _, hq⟩ := performWord_next e.cmd (s.withPhase (.running (k + 1)))
        exact ⟨t, by rw [performEdge_command hr hv hp, ht], by simpa using hq⟩

/-- No command reads or writes the inputs to come. -/
theorem exec_withPending {i : Instr} {s t : State} (h : exec i s = .next t) (es : List Edge) :
    exec i (s.withPending es) = .next (t.withPending es) := by
  cases i with
  | wrb j d => simp only [exec, execWrb] at h ⊢; split at h <;> cases h <;> simp_all <;> rfl
  | rdb j => simp only [exec, execRdb] at h ⊢; split at h <;> cases h <;> simp_all <;> rfl
  | nop | clr | ext _ | scl _ | ins _ _ => cases h; rfl

/-- What an edge does to the registers does not depend on the inputs to come (R52 of 20_memory.md). -/
theorem performEdge_withPending {e : Edge} {s t : State} (h : performEdge e s = .next t) (es : List Edge) :
    performEdge e (s.withPending es) = .next (t.withPending es) := by
  cases hr : e.rst with
  | true => rw [performEdge_rst s hr] at h; cases h; rw [performEdge_rst _ hr]; rfl
  | false =>
    cases hp : s.phase with
    | powerUp n =>
      rw [performEdge_powerUp hr hp] at h; cases h
      rw [performEdge_powerUp hr (s := s.withPending es) hp]; rfl
    | running k =>
      cases hv : e.cmdValid with
      | false =>
        rw [performEdge_idle hr hv hp] at h; cases h
        rw [performEdge_idle hr hv (s := s.withPending es) hp]
      | true =>
        rw [performEdge_command hr hv hp] at h
        rw [performEdge_command hr hv (s := s.withPending es) hp]
        unfold performWord at h ⊢
        split at h
        · exact exec_withPending h es
        · cases h; rfl

end Sys2Proof.Machine
end

