-- ==== Sys2Proof/Laws/Float64.lean ====
section
/-!
SUPPORT. What the pieces of binary64 do, as rational numbers: the rounding of a quotient, the exponent of a quotient, the value
of a bit pattern, and the fields of f64's answer.
-/
namespace Sys2Proof.Machine

/-- The rounded quotient is within half of n/d, and even where it is exactly half away. -/
theorem roundHalfEven_spec (n d : Nat) (hd : 0 < d) :
    2 * n ≤ 2 * (roundHalfEven n d * d) + d ∧ 2 * (roundHalfEven n d * d) ≤ 2 * n + d ∧
    (2 * n = 2 * (roundHalfEven n d * d) + d ∨ 2 * (roundHalfEven n d * d) = 2 * n + d → roundHalfEven n d % 2 = 0) := by
  have h1 := Nat.div_add_mod n d
  have h2 := Nat.mod_lt n hd
  have h3 : d * (n / d) = n / d * d := Nat.mul_comm _ _
  have h4 : (n / d + 1) * d = n / d * d + d := by ring
  unfold roundHalfEven
  split
  · rw [h4]; rename_i h; refine ⟨by omega, by omega, ?_⟩
    rintro (h5 | h5) <;> omega
  · rename_i h; refine ⟨by omega, by omega, ?_⟩
    rintro (h5 | h5) <;> omega

/-- The comparison `floorLog2` makes is that of y * 2^k with x. -/
theorem scaled_le_iff (x y : Nat) (k : Int) : (y * 2 ^ k.toNat ≤ x * 2 ^ (-k).toNat) ↔ (y : ℚ) * 2 ^ k ≤ x := by
  have h2 : (2:ℚ) ≠ 0 := by norm_num
  rcases le_total 0 k with h | h
  · lift k to ℕ using h
    simp
    exact_mod_cast Iff.rfl
  · obtain ⟨m, rfl⟩ := Int.exists_eq_neg_ofNat h
    simp
    rw [mul_inv_le_iff₀ (by positivity)]
    exact_mod_cast Iff.rfl

/-- floorLog2 a d is the exponent of the leading bit of a/d. -/
theorem floorLog2_spec (a d : Nat) (ha : 0 < a) (hd : 0 < d) :
    (d : ℚ) * 2 ^ floorLog2 a d ≤ a ∧ (a : ℚ) < d * 2 ^ (floorLog2 a d + 1) := by
  have a1 : 2 ^ a.log2 ≤ a := Nat.log2_self_le (by omega)
  have a2 : a < 2 ^ (a.log2 + 1) := Nat.lt_log2_self
  have d1 : 2 ^ d.log2 ≤ d := Nat.log2_self_le (by omega)
  have d2 : d < 2 ^ (d.log2 + 1) := Nat.lt_log2_self
  have A1 : (2:ℚ) ^ (a.log2 : ℤ) ≤ a := by exact_mod_cast a1
  have A2 : (a:ℚ) < 2 ^ ((a.log2 : ℤ) + 1) := by exact_mod_cast a2
  have D1 : (2:ℚ) ^ (d.log2 : ℤ) ≤ d := by exact_mod_cast d1
  have D2 : (d:ℚ) < 2 ^ ((d.log2 : ℤ) + 1) := by exact_mod_cast d2
  have h2 : (2:ℚ) ≠ 0 := by norm_num
  unfold floorLog2
  simp only
  split
  · rename_i h
    rw [scaled_le_iff] at h
    refine ⟨h, ?_⟩
    calc (a:ℚ) < 2 ^ ((a.log2 : ℤ) + 1) := A2
      _ = 2 ^ (d.log2 : ℤ) * 2 ^ ((a.log2 : ℤ) - d.log2 + 1) := by rw [← zpow_add₀ h2]; congr 1; ring
      _ ≤ _ := by gcongr
  · rename_i h
    rw [scaled_le_iff, not_le] at h
    refine ⟨?_, by simpa using h⟩
    calc (d:ℚ) * 2 ^ ((a.log2 : ℤ) - d.log2 - 1) ≤ 2 ^ ((d.log2 : ℤ) + 1) * 2 ^ ((a.log2 : ℤ) - d.log2 - 1) := by gcongr
      _ = 2 ^ (a.log2 : ℤ) := by rw [← zpow_add₀ h2]; congr 1; ring
      _ ≤ a := A1

theorem zpow_sub_nat (E c : ℕ) : (2:ℚ) ^ ((E:ℤ) - (c:ℤ)) = 2 ^ (E - c) / 2 ^ (c - E) := by
  have h2 : (2:ℚ) ≠ 0 := by norm_num
  rw [zpow_sub₀ h2, div_eq_div_iff (by positivity) (by positivity)]
  rw [zpow_natCast, zpow_natCast, ← pow_add, ← pow_add]
  congr 1; omega

/-- val(x): the sign, the significand and the exponent of a bit pattern (R10 of 00_scope.md). -/
theorem valRat_eq (x : Result) : valRat x = (if x.msb then -1 else 1) * (significandOf x : ℚ) * 2 ^ ((max (exponentField x) 1 : ℕ) - 1075 : ℤ) := by
  have h2 : (2:ℚ) ≠ 0 := by norm_num
  unfold valRat valNum valDen
  generalize max (exponentField x) 1 = E
  simp only
  by_cases hs : significandOf x = 0
  · simp [hs]
  · rw [if_neg hs]
    have : (2:ℚ) ^ ((E:ℤ) - 1075) = 2 ^ (E - 1075) / 2 ^ (1075 - E) := by
      exact zpow_sub_nat E 1075
    rw [this]
    split <;> push_cast <;> ring

/-- The fields of f64's answer, for a quotient whose significand and last place are m and e: its sign, that it is finite, its
value, and its significand, which is m unless rounding carried it up to 2^53. -/
theorem f64_fields (n : Int) (d : Nat) (hn : n ≠ 0) (e : Int) (m : Nat) (he : lastPlace n.natAbs d = e) (hm : significand n.natAbs d e = m)
    (h1 : -1074 ≤ e) (h2 : e ≤ 971) (h3 : m ≤ 2 ^ 53) (h4 : 2 ^ 52 ≤ m ∨ e = -1074) (h5 : e = 971 → m < 2 ^ 53) :
    ((f64 n d).msb = true ↔ n < 0) ∧ exponentField (f64 n d) < 2047 ∧
    (significandOf (f64 n d) : ℚ) * 2 ^ ((max (exponentField (f64 n d)) 1 : ℕ) - 1075 : ℤ) = m * 2 ^ e ∧
    (m < 2 ^ 53 → significandOf (f64 n d) = m) ∧ (m = 2 ^ 53 → significandOf (f64 n d) = 2 ^ 52) := by
  obtain ⟨T, hT⟩ : ∃ T : ℕ, e = T - 1074 := ⟨(e + 1074).toNat, by omega⟩
  have hTn : (e + 1074).toNat = T := by omega
  have hx : (f64 n d).toNat = (if n < 0 then 2 ^ 63 else 0) + T * 2 ^ 52 + m := by
    simp only [f64, if_neg hn, he, hm, hTn, BitVec.toNat_ofNat]
    apply Nat.mod_eq_of_lt
    split <;> omega
  have hmsb : (f64 n d).msb = true ↔ n < 0 := by
    rw [BitVec.msb_eq_decide, decide_eq_true_iff, hx]
    split <;> rename_i h <;> simp [h] <;> omega
  have hE : exponentField (f64 n d) = (T * 2 ^ 52 + m) / 2 ^ 52 := by
    rw [exponentField, hx]; split <;> omega
  have hF : fractionField (f64 n d) = m % 2 ^ 52 := by
    rw [fractionField, hx]; split <;> omega
  have hE2 : exponentField (f64 n d) = T + m / 2 ^ 52 := by rw [hE]; omega
  refine ⟨hmsb, by omega, ?_, ?_, ?_⟩
  · unfold significandOf
    rw [hE2, hF, hT]
    have hc : m < 2 ^ 52 ∨ (2 ^ 52 ≤ m ∧ m < 2 ^ 53) ∨ m = 2 ^ 53 := by omega
    rcases hc with hc | ⟨hc, hc'⟩ | hc
    · have hT0 : T = 0 := by omega
      subst hT0
      rw [Nat.div_eq_of_lt hc, Nat.mod_eq_of_lt hc]
      simp
    · have hq : m / 2 ^ 52 = 1 := by omega
      have hr : 2 ^ 52 + m % 2 ^ 52 = m := by omega
      rw [hq, if_neg (by omega), hr, max_eq_left (by omega)]
      congr 2; push_cast; ring
    · subst hc
      norm_num
      rw [show ((T:ℤ) + 2 - 1075) = (T - 1074) + 1 by ring, zpow_add₀ (by norm_num)]
      norm_num
      ring
  · intro hc
    unfold significandOf
    rw [hE2, hF]
    have : m < 2 ^ 52 ∨ (2 ^ 52 ≤ m ∧ m < 2 ^ 53) := by omega
    rcases this with hc | ⟨hc, hc'⟩
    · have hT0 : T = 0 := by omega
      subst hT0
      rw [Nat.div_eq_of_lt hc, Nat.mod_eq_of_lt hc]; simp
    · rw [if_neg (by omega)]; omega
  · intro hc
    unfold significandOf
    rw [hE2, hF, if_neg (by omega)]; omega

/-- The significand is within half of the quotient counted in units of 2^e, and even where it is exactly half away. -/
theorem significand_spec (a d : Nat) (hd : 0 < d) (e : Int) :
    |(significand a d e : ℚ) - (a : ℚ) / d / 2 ^ e| ≤ 1 / 2 ∧
    (|(significand a d e : ℚ) - (a : ℚ) / d / 2 ^ e| = 1 / 2 → significand a d e % 2 = 0) := by
  have h2 : (2:ℚ) ≠ 0 := by norm_num
  have hD : 0 < d * 2 ^ e.toNat := by positivity
  obtain ⟨r1, r2, r3⟩ := roundHalfEven_spec (a * 2 ^ (-e).toNat) (d * 2 ^ e.toNat) hD
  rw [← significand] at r1 r2 r3
  generalize significand a d e = m at *
  have hx : (a : ℚ) / d / 2 ^ e = ((a * 2 ^ (-e).toNat : ℕ) : ℚ) / ((d * 2 ^ e.toNat : ℕ) : ℚ) := by
    have : (2:ℚ) ^ e = 2 ^ e.toNat / 2 ^ (-e).toNat := by
      rw [eq_div_iff (by positivity), ← zpow_natCast, ← zpow_natCast, ← zpow_add₀ h2]
      congr 1; omega
    rw [this]; push_cast
    field_simp
  rw [hx]
  generalize a * 2 ^ (-e).toNat = N at *
  generalize d * 2 ^ e.toNat = D at *
  have hDq : (0:ℚ) < D := by exact_mod_cast hD
  have q1 : 2 * (N:ℚ) ≤ 2 * (m * D) + D := by exact_mod_cast r1
  have q2 : 2 * (m * D) ≤ 2 * (N:ℚ) + D := by exact_mod_cast r2
  have e1 : (m:ℚ) - N / D = (m * D - N) / D := by field_simp
  rw [e1, abs_div, abs_of_pos hDq]
  refine ⟨?_, ?_⟩
  · rw [div_le_iff₀ hDq, abs_le]; constructor <;> linarith
  · intro h
    rw [div_eq_iff hDq.ne'] at h
    apply r3
    rcases abs_choice ((m:ℚ) * D - N) with h' | h' <;> rw [h'] at h
    · right
      have : 2 * ((m:ℚ) * D) = 2 * N + D := by linarith
      exact_mod_cast this
    · left
      have : 2 * (N:ℚ) = 2 * (m * D) + D := by linarith
      exact_mod_cast this

/-- In units of the last place a quotient is below 2^53, and at least 2^52 unless the last place is the subnormals'. -/
theorem lastPlace_spec (a d : Nat) (ha : 0 < a) (hd : 0 < d) :
    -1074 ≤ lastPlace a d ∧ (a : ℚ) / d / 2 ^ lastPlace a d < 2 ^ 53 ∧ (lastPlace a d = -1074 ∨ (2:ℚ) ^ 52 ≤ (a : ℚ) / d / 2 ^ lastPlace a d) := by
  obtain ⟨f1, f2⟩ := floorLog2_spec a d ha hd
  have hdq : (0:ℚ) < d := by exact_mod_cast hd
  have h2 : (2:ℚ) ≠ 0 := by norm_num
  refine ⟨le_max_right _ _, ?_, ?_⟩
  · rw [div_div, div_lt_iff₀ (by positivity)]
    calc (a:ℚ) < d * 2 ^ (floorLog2 a d + 1) := f2
      _ ≤ d * 2 ^ (53 + lastPlace a d) := by
        have : floorLog2 a d - 52 ≤ lastPlace a d := le_max_left _ _
        exact mul_le_mul_of_nonneg_left (zpow_le_zpow_right₀ (by norm_num) (by omega)) hdq.le
      _ = _ := by rw [zpow_add₀ h2]; norm_num; ring
  · rcases le_total (floorLog2 a d - 52) (-1074) with h | h
    · left; exact max_eq_right h
    · right
      rw [show lastPlace a d = floorLog2 a d - 52 from max_eq_left h, div_div, le_div_iff₀ (by positivity)]
      calc (2:ℚ) ^ 52 * (d * 2 ^ (floorLog2 a d - 52)) = d * 2 ^ floorLog2 a d := by
            rw [zpow_sub₀ h2]; norm_num; ring
        _ ≤ a := f1

theorem valDen_pos (x : Result) : 0 < valDen x := by
  unfold valDen; split <;> positivity

end Sys2Proof.Machine
end

