-- ==== Sys2Proof/Laws/PerInstr.lean ====
section
/-!
SUPPORT. Facts about every instruction as syntax, one lemma per constructor.
-/
namespace Sys2Proof.Laws.EncodedOpcode

/-- The encoded word carries the instruction's opcode of R63 of 30_encoding.md in OP. -/
def Statement (i : Instr) : Prop := opOf (encode i) = i.opcode

theorem nop : Statement .nop := rfl

theorem clr : Statement .clr := rfl

theorem wrb (j : BitVec 4) (d : Byte) : Statement (.wrb j d) := by
  apply BitVec.eq_of_getLsbD_eq
  intro k hk
  have : k = 0 ∨ k = 1 ∨ k = 2 ∨ k = 3 := by omega
  rcases this with rfl | rfl | rfl | rfl <;> simp [opOf, encode, Instr.opcode]

theorem rdb (j : BitVec 4) : Statement (.rdb j) := by
  apply BitVec.eq_of_getLsbD_eq
  intro k hk
  have : k = 0 ∨ k = 1 ∨ k = 2 ∨ k = 3 := by omega
  rcases this with rfl | rfl | rfl | rfl <;> simp [opOf, encode, Instr.opcode]

theorem ext (i : BitVec 3) : Statement (.ext i) := by
  apply BitVec.eq_of_getLsbD_eq
  intro k hk
  have : k = 0 ∨ k = 1 ∨ k = 2 ∨ k = 3 := by omega
  rcases this with rfl | rfl | rfl | rfl <;> simp [opOf, encode, Instr.opcode]

theorem scl (i : BitVec 3) : Statement (.scl i) := by
  apply BitVec.eq_of_getLsbD_eq
  intro k hk
  have : k = 0 ∨ k = 1 ∨ k = 2 ∨ k = 3 := by omega
  rcases this with rfl | rfl | rfl | rfl <;> simp [opOf, encode, Instr.opcode]

theorem ins (i : BitVec 3) (v : InsValue) : Statement (.ins i v) := by
  apply BitVec.eq_of_getLsbD_eq
  intro k hk
  have : k = 0 ∨ k = 1 ∨ k = 2 ∨ k = 3 := by omega
  rcases this with rfl | rfl | rfl | rfl <;> simp [opOf, encode, Instr.opcode]

end Sys2Proof.Laws.EncodedOpcode
end

