-- ==== Sys2Proof/Laws/Run.lean ====
section
/-!
SUPPORT. Runs one edge at a time: a claim about a list of inputs is an induction over the list with these.
-/
namespace Sys2Proof.Machine

@[simp] theorem nextEdge_withPending_cons (s : State) (e : Edge) (es : List Edge) :
    (s.withPending (e :: es)).nextEdge = e := rfl

@[simp] theorem withPending_withPending (s : State) (es fs : List Edge) :
    (s.withPending es).withPending fs = s.withPending fs := rfl

@[simp] theorem withPending_self (s : State) : s.withPending s.pending = s := rfl

@[simp] theorem runInputs_nil (s : State) : runInputs [] s = .next (s.withPending []) := rfl

/-- The first input is performed on the state that still holds the others; the rest of the run follows. -/
theorem runEdges_cons (e : Edge) (es : List Edge) (s : State) (n : Nat) {t : State}
    (h : performEdge e (s.withPending es) = .next t) :
    runEdges (n + 1) (s.withPending (e :: es)) = runEdges n t := by
  simp only [runEdges]
  rw [show step (s.withPending (e :: es)) = performEdge e (s.withPending es) from rfl, h]

theorem runInputs_cons (e : Edge) (es : List Edge) (s : State) {t : State}
    (h : performEdge e (s.withPending es) = .next t) : runInputs (e :: es) s = runInputs es t := by
  have hq : t.pending = es := by
    obtain ⟨u, hu, hp⟩ := performEdge_next e (s.withPending es)
    rw [h] at hu; cases hu; simpa using hp
  unfold runInputs
  rw [List.length_cons, runEdges_cons e es s es.length h]
  subst hq
  rfl

/-- n edges, then m more. -/
theorem runEdges_add (n m : Nat) (s : State) {t : State} (h : runEdges n s = .next t) :
    runEdges (n + m) s = runEdges m t := by
  induction n generalizing s with
  | zero => simp only [runEdges] at h; cases h; simp
  | succ n ih =>
    rw [Nat.add_right_comm]
    simp only [runEdges] at h ⊢
    cases hs : step s with
    | next u => rw [hs] at h; exact ih u h
    | fault f => cases f
    | refused r => rw [hs] at h; cases h

end Sys2Proof.Machine
end

