-- ==== Sys2Proof/Tests/Slice0.lean ====
section
/-!
SUPPORT. Tests: the decoder on words written out from the patterns of R64 of 30_encoding.md, one step on small states with the
expected values of 95_test_vectors.md (their ids in the comments), and a witness for the hypotheses of every statement.
-/
namespace Sys2Proof.Tests

open Sys2Proof Sys2Proof.Machine Sys2Proof.Safety

/-- A state after reset with the given buffer, result, status bits and inputs. -/
def mk (b : Buffer) (r : Result) (o i : Bool) (es : List Edge) : State :=
  { State.reset with buf := b, res := r, ovf := o, ill := i, pending := es }

/-- The §8 buffer. -/
def b8 : Buffer := 0x1820C2061030F18A8C7464C337#104

def ones : Buffer := 0xFFFFFFFFFFFFFFFFFFFFFFFFFF#104

def nextOf (o : Host.Outcome State Fault Refusal) : Option State :=
  match o with
  | .next s => some s
  | .fault _ => none
  | .refused _ => none

/-- The state after one command word is presented. -/
def after (s : State) (c : Word) : Option State := nextOf (step { s with pending := [Edge.command c] })

/-! ### WellFormed: an ill-formed term for each check -/

theorem test_wf_refuses_wrb_13 : (Instr.wrb 13 0).wf = false := by decide
theorem test_wf_refuses_rdb_15 : (Instr.rdb 15).wf = false := by decide
theorem test_wf_accepts_byte_12 : (Instr.wrb 12 0xFF).wf = true ∧ (Instr.rdb 12).wf = true := by decide

/-! ### Decode: each constructor's word, from the pattern of R64 (bit 31 first) -/

theorem test_decode_nop : decode 0b00000000000000000000000000000000#32 = .ok .nop := by decide
theorem test_decode_clr : decode 0b00000000000000000000000000000001#32 = .ok .clr := by decide
-- d = 11000011, b = 0001
theorem test_decode_wrb : decode 0b00000000110000110000000100000010#32 = .ok (.wrb 1 0xC3) := by decide
-- b = 1100
theorem test_decode_rdb : decode 0b00000000000000000000110000000011#32 = .ok (.rdb 12) := by decide
-- f = 011
theorem test_decode_ext : decode 0b00000000000000000000000000110100#32 = .ok (.ext 3) := by decide
-- f = 110
theorem test_decode_scl : decode 0b00000000000000000000000001100101#32 = .ok (.scl 6) := by decide
-- v = 1000000000000001, f = 101
theorem test_decode_ins : decode 0b10000000000000010000000001010110#32 = .ok (.ins 5 0x8001) := by decide

/-- The illegal words X84, X87, X88, X92, X93, X96, X98, X99, X103, X105 (2.6). -/
theorem test_decode_rejects_by_name :
    decode 0x00000007#32 = .error (.reservedOpcode 7) ∧
    decode 0xFFFFFFFF#32 = .error (.reservedOpcode 15) ∧
    decode 0x00000010#32 = .error .unusedFieldNonzero ∧
    decode 0x00000D02#32 = .error (.byteIndexOutOfRange 13) ∧
    decode 0x01000002#32 = .error .unusedFieldNonzero ∧
    decode 0x00000F03#32 = .error (.byteIndexOutOfRange 15) ∧
    decode 0x00008003#32 = .error .unusedFieldNonzero ∧
    decode 0x00000084#32 = .error .unusedFieldNonzero ∧
    decode 0x00010005#32 = .error .unusedFieldNonzero ∧
    decode 0x00000106#32 = .error .unusedFieldNonzero := by decide

theorem test_decode_table_word :
    decodeTableWord 32 0x00370002 = some (.wrb 0 0x37) ∧ decodeTableWord 8 0x74 = some (.ext 7) ∧
    decodeTableWord 32 0x00000D03 = none := by decide

/-- The program of a run is presented at the very next edge. -/
theorem test_with_fetch_word : step (State.reset.withFetchWord 32 0x03370006) =
    exec (.ins 0 823) { State.reset with phase := .running 1 } := rfl

/-! ### One step of each command (95_test_vectors.md) -/

-- X14
theorem test_nop_x14 : after (mk b8 0x337 true false []) 0x00000000#32 =
    some { mk b8 0x337 true false [] with phase := .running 1 } := by decide
-- X15
theorem test_clr_x15 : after (mk b8 0x337 true false []) 0x00000001#32 =
    some { mk 0 0x337 true false [] with phase := .running 1 } := by decide
-- X18, X17
theorem test_wrb_x18 : (after (mk b8 0 false false []) 0x00FF0402#32).map (·.buf) =
    some 0x1820C2061030F18AFF7464C337#104 := by decide
theorem test_wrb_x17 : (after (mk ones 0 false false []) 0x00000C02#32).map (·.buf) =
    some 0x00FFFFFFFFFFFFFFFFFFFFFFFF#104 := by decide
-- X22, X21
theorem test_rdb_x22 : (after (mk b8 0 false false []) 0x00000C03#32).map (·.res) = some 0x18#64 := by decide
theorem test_rdb_x21 : (after (mk b8 0 false false []) 0x00000103#32).map (·.res) = some 0xC3#64 := by decide
-- X31, X28
theorem test_ext_x31 : (after (mk b8 0 false false []) 0x00000034#32).map (·.res) = some 789#64 := by decide
theorem test_ext_x28 : (after (mk 0x80000000000000000000000000#104 0 false false []) 0x00000074#32).map (·.res) =
    some 0x1000#64 := by decide
-- X38 and X39: one rounding too few, or a fused multiply and subtract, fails one of them
theorem test_scl_x38 : (after (mk 399 0 false false []) 0x00000005#32).map (·.res) =
    some 0xBFA9999999999800#64 := by decide
theorem test_scl_x39 : (after (mk 400 7 false false []) 0x00000005#32).map (·.res) = some 0#64 := by decide
-- X81 and X78
theorem test_ins_x81 : (after (mk b8 0 false false []) 0xFFFF0036#32).map (fun s => (s.buf, s.ovf)) =
    some (0x1820C2061030FFFF8C7464C337#104, true) := by decide
theorem test_ins_x78 : (after (mk 0 0 false false []) 0xE0000076#32).map (fun s => (s.buf, s.ovf)) =
    some (0#104, true) := by decide
-- X97: an illegal word sets ILL and nothing else
theorem test_illegal_x97 : after (mk b8 0x337 true false []) 0x00010003#32 =
    some { mk b8 0x337 true true [] with phase := .running 1 } := by decide
-- X110: reset wins over an illegal word
theorem test_reset_x110 :
    nextOf (step (mk b8 0x337 true true [{ rst := true, cmdValid := true, cmd := 0x00000007#32 }])) =
    some State.reset := by decide
-- X112: an idle edge does not decode the word
theorem test_idle_x112 :
    nextOf (step (mk b8 0x337 true false [{ rst := false, cmdValid := false, cmd := 0x00000007#32 }])) =
    some (mk b8 0x337 true false []) := by decide
-- 1.1: the field ports after the load of the §8 buffer
theorem test_field_ports : (mk b8 0 false false []).outputs.fieldQ = #v[823, 806, 797, 789, 783, 776, 776, 772] := by
  decide
theorem test_assemble : assembleLine ['w', 'r', 'b', ' ', '0', ',', ' ', '0', 'x', '3', '7'] = .command (.wrb 0 0x37) ∧
    assembleLine [' ', ';', 'N', 'O', 'P'] = .blank ∧ assembleLine ['E', 'X', 'T', ' ', '8'] = .refused := by decide

/-! ### Witnesses: a state and operands that meet the hypotheses of each statement -/

/-- A running state at command index 5 with the inputs es. -/
def at5 (es : List Edge) : State := { mk b8 0x337 true false es with phase := .running 5 }

def rstEdge : Edge := { rst := true, cmdValid := true, cmd := 0x00000001#32 }

theorem witness_DecodeOfEncodeIsIdentity : (Instr.wrb 12 0xFF).wf = true := by decide
theorem witness_EncodeOfDecodeIsIdentity : decode 0x00FF0C02#32 = .ok (.wrb 12 0xFF) := by decide
theorem witness_LegalityCheckIsTheDecoder : legal 0x00000D03#32 = false ∧ legal 0x00000C03#32 = true ∧
    (at5 [Edge.command 0x00000D03#32]).phase = .running 5 ∧
    (at5 [Edge.command 0x00000D03#32]).pending = Edge.command 0x00000D03#32 :: [] := by decide
theorem witness_ReservedOpcodesAreIllegal : 7 ≤ ((0x00000007#32).extractLsb' 0 4).toNat ∧
    7 ≤ ((0xFFFFFFFF#32).extractLsb' 0 4).toNat ∧ (at5 [Edge.command 7]).phase = .running 5 ∧
    (at5 [Edge.command 7]).pending = Edge.command 7 :: [] := by decide
theorem witness_AssemblerNeverEncodesAnIllegalWord :
    assembleLine ['I', 'N', 'S', ' ', '7', ',', '6', '5', '5', '3', '5'] = .command (.ins 7 65535) := by decide
theorem witness_StepRunsTheDecodedInstruction : (at5 [Edge.command 0x00000075#32]).phase = .running 5 ∧
    (at5 [Edge.command 0x00000075#32]).pending = Edge.command 0x00000075#32 :: [] ∧
    decode 0x00000075#32 = .ok (.scl 7) := by decide
theorem witness_IllegalCommandSetsIllAlone : (at5 [Edge.command 0x84#32, Edge.command 4#32]).phase = .running 5 ∧
    (at5 [Edge.command 0x84#32, Edge.command 4#32]).pending = Edge.command 0x84#32 :: [Edge.command 4#32] ∧
    legal 0x84#32 = false ∧ [Edge.command 4#32] = Edge.command 4#32 :: [] ∧ decode 4#32 = .ok (.ext 0) := by decide
theorem witness_IdleEdgeKeepsEveryRegister : (at5 [Edge.idle]).phase = .running 5 ∧
    (at5 [Edge.idle]).pending = Edge.idle :: [] ∧ Edge.idle.rst = false ∧ Edge.idle.cmdValid = false := by decide
theorem witness_CmdPortIgnoredUnlessPerformed : ¬ (false = true ∧ false = false) ∧ ¬ (true = true ∧ true = false) := by
  decide
theorem witness_ResetWinsOverACommand : (at5 [rstEdge, Edge.command 4]).pending = rstEdge :: [Edge.command 4] ∧
    rstEdge.rst = true := by decide
theorem witness_ResetSetsEveryRegisterToZero : [rstEdge, rstEdge] ≠ [] ∧ ∀ e ∈ [rstEdge, rstEdge], e.rst = true := by
  decide
theorem witness_ResetErasesTheHistory : rstEdge.rst = true := by decide
theorem witness_EdgeBeforeTheFirstResetLeavesFreeValues :
    ({ State.powerUp with pending := [Edge.command 1] } : State).phase = .powerUp 0 ∧
    ({ State.powerUp with pending := [Edge.command 1] } : State).pending = Edge.command 1 :: [] ∧
    (Edge.command 1).rst = false := ⟨rfl, rfl, rfl⟩
theorem witness_EdgesAfterTheLastInputAreIdle : (at5 []).phase = .running 5 ∧ (at5 []).pending = [] := by decide
theorem witness_CommandIndexCountsPerformedCommands : (at5 [rstEdge]).pending = rstEdge :: [] ∧ rstEdge.rst = true ∧
    (at5 []).phase = .running 5 ∧
    ∀ e ∈ [Edge.command 4, Edge.idle, Edge.command 7, Edge.command 0x20000006#32], e.rst = false := by decide
/-- EXT 0, idle, an illegal word, INS 0, 8192: ILL and OVF end at 1. -/
def inputs : List Edge := [Edge.command 4, Edge.idle, Edge.command 7, Edge.command 0x20000006#32]
theorem witness_IllIsStickyAndRecordsEveryIllegalCommand : (at5 []).phase = .running 5 ∧ (∀ e ∈ inputs, e.rst = false) ∧
    inputs.any (fun e => e.cmdValid && !legal e.cmd) = true := by decide
theorem witness_OvfReportsTheLastIns : (at5 []).phase = .running 5 ∧ (∀ e ∈ inputs, e.rst = false) ∧
    ((0x20000006#32).extractLsb' 16 16).toNat = 8192 ∧ 0x20000006#32 &&& 0x0000FF8F#32 = 0x00000006#32 := by decide
theorem witness_StatusBitsInfluenceNoCommand : (at5 inputs).phase = .running 5 ∧
    (at5 inputs).ovf ≠ !(at5 inputs).ovf := by decide
theorem witness_IdleEdgesChangeNoObservation : (at5 []).phase = .running 5 ∧ (∀ e ∈ inputs, e.rst = false) ∧
    (inputs.filter (·.cmdValid)).length = 3 := by decide
/-- A step that changes each of the four registers, for the four clauses. -/
theorem witness_RegistersChangeOnlyAsTheTableSays :
    (after (at5 []) 1).map (fun t => decide (t.buf ≠ (at5 []).buf)) = some true ∧
    (after (at5 []) 0x14).map (fun t => decide (t.res ≠ (at5 []).res)) = some true ∧
    (after (at5 []) 6).map (fun t => decide (t.ovf ≠ (at5 []).ovf)) = some true ∧
    (after (at5 []) 7).map (fun t => decide (t.ill ≠ (at5 []).ill)) = some true := by decide
theorem witness_EveryStepKeepsTheResultLegal : ResultLegal (at5 [Edge.command 5]) ∧
    step (at5 [Edge.command 5]) = .next { at5 [] with phase := .running 6, res := physicalValue 823 } ∧
    ResultLegal { at5 [] with res := physicalValue 8191 } :=
  ⟨.inl (by show (0x337#64).toNat < 8192; decide), rfl, .inr ⟨8191, rfl⟩⟩
theorem witness_ByteComposedFieldIsTheField : 7 < 8 ∧ fieldByBytes b8 7 = 772 := by decide
theorem witness_NopDoesNothing : (0x80000000#32).extractLsb' 0 4 = 0x0#4 ∧ (0x80000000#32).extractLsb' 4 28 ≠ 0 ∧
    (at5 [Edge.command 0x80000000#32]).pending = Edge.command 0x80000000#32 :: [] ∧
    (at5 [Edge.command 0#32]).phase = .running 5 ∧ (at5 [Edge.command 0#32]).pending = Edge.command 0#32 :: [] := by decide
theorem witness_ClrZeroesTheBuffer : (0x00000011#32).extractLsb' 0 4 = 0x1#4 ∧ (0x00000011#32).extractLsb' 4 28 ≠ 0 ∧
    (at5 [Edge.command 0x11#32]).pending = Edge.command 0x11#32 :: [] := by decide
theorem witness_WrbWritesOneByte : (12#4).toNat ≤ 12 ∧ 11 < 13 ∧ 11 ≠ (12#4).toNat ∧
    (0x00000D02#32).extractLsb' 0 4 = 0x2#4 ∧ 13 ≤ ((0x00000D02#32).extractLsb' 8 4).toNat ∧
    (0x01000002#32).extractLsb' 0 4 = 0x2#4 ∧ (0x01000002#32).extractLsb' 24 8 ≠ 0 := by decide
theorem witness_RdbReadsOneByte : (12#4).toNat ≤ 12 ∧ (0#4).toNat ≤ 12 ∧
    (0x00000D03#32).extractLsb' 0 4 = 0x3#4 ∧ 13 ≤ ((0x00000D03#32).extractLsb' 8 4).toNat ∧
    (0x00008003#32).extractLsb' 0 4 = 0x3#4 ∧ (0x00008003#32).extractLsb' 12 20 ≠ 0 := by decide
theorem witness_ByteIndexOutOfRangeRaisesIllegal : 13 ≤ (13#4).toNat ∧ 13 ≤ (15#4).toNat := by decide
/-- Byte 12 is field 7's alone; byte 1 is shared by fields 0 and 1. -/
theorem witness_WrbChangesExactlyTheFieldsOfItsByte : (12#4).toNat ≤ 12 ∧ 7 < 8 ∧
    (after (mk 0 0 false false []) 0x00FF0102#32).map (fun t => (fieldOf t.buf 0, fieldOf t.buf 1, fieldOf t.buf 2)) =
      some (0x1F00, 7, 0) := by decide
theorem witness_LoadBufLoadsEveryByte : (at5 []).phase = .running 5 := by decide
theorem witness_DumpReadsEveryByte : (at5 []).phase = .running 5 ∧ dumpCommands.length = 13 := by decide
theorem witness_DecodeReadsEveryField : (at5 []).phase = .running 5 ∧ decodeCommands.length = 8 ∧
    scaleAllCommands.length = 8 := by decide
theorem witness_ExtExtractsOneField : (0x00000084#32).extractLsb' 0 4 = 0x4#4 ∧ (0x00000084#32).extractLsb' 7 1 ≠ 0 ∧
    (0x00010004#32).extractLsb' 0 4 = 0x4#4 ∧ (0x00010004#32).extractLsb' 8 24 ≠ 0 := by decide
/-- The largest finite value, and a tie between two binary64 values: 2^53 + 1 lies halfway between 2^53 and 2^53 + 2. -/
theorem witness_F64RoundsToNearestTiesToEven : 0 < 1 ∧ ((2 ^ 53 + 1 : Int)).natAbs ≤ (2 ^ 53 - 1) * 2 ^ 971 * 1 ∧
    exponentField 0x4340000000000001#64 < 2047 ∧ f64 (2 ^ 53 + 1) 1 = 0x4340000000000000#64 ∧
    valNum 0x4340000000000001#64 = 2 ^ 53 + 2 ∧ valDen 0x4340000000000001#64 = 1 := by decide +kernel
theorem witness_F64OperationsRoundTheExactResult : 0 < 20 ∧ 0 < 40 ∧ ((1 : Int) : ℚ) / ((20 : Nat) : ℚ) = ((2 : Int) : ℚ) / ((40 : Nat) : ℚ) ∧
    ((0 : Int) : ℚ) / ((1 : Nat) : ℚ) = valRat 0 * valRat 0 ∧ ((0 : Int) : ℚ) / ((1 : Nat) : ℚ) = valRat 0 - valRat 0 := by
  have hv : valRat 0#64 = 0 := by simp [valRat, show valNum 0#64 = 0 by decide]
  refine ⟨by decide, by decide, by norm_num, ?_, ?_⟩ <;> simp [hv]
theorem witness_SclScalesOneField : (0x00000085#32).extractLsb' 0 4 = 0x5#4 ∧ (0x00000085#32).extractLsb' 7 1 ≠ 0 ∧
    (0x00010005#32).extractLsb' 0 4 = 0x5#4 ∧ (0x00010005#32).extractLsb' 8 24 ≠ 0 ∧
    8191 = (0x1FFF#104).toNat / 2 ^ (13 * (0#3).toNat) % 2 ^ 13 := by decide
theorem witness_SclIsStrictlyIncreasing :
    exec (.scl 7) (mk 0 0 false false []) = .next (mk 0 (physicalValue 0) false false []) ∧
    exec (.scl 0) (mk 8191 0 false false []) = .next (mk 8191 (physicalValue 8191) false false []) ∧
    (fieldOf 0 7).toNat < (fieldOf 8191 0).toNat := ⟨rfl, rfl, by decide⟩
theorem witness_SclResultsAreNormalAndInRange :
    exec (.scl 0) (mk 400 0 false false []) = .next (mk 400 (physicalValue 400) false false []) ∧
    (fieldOf 400 0).toNat = 400 ∧ (fieldOf 399 0).toNat < 400 ∧ 400 < (fieldOf 401 0).toNat := ⟨rfl, by decide, by decide, by decide⟩
/-- Two states whose field 0 is 0 and 1: successive, and increasing. -/
theorem witness_SclStepIsNeverExact :
    exec (.scl 0) (mk 0 0 false false []) = .next (mk 0 (physicalValue 0) false false []) ∧
    exec (.scl 0) (mk 1 0 false false []) = .next (mk 1 (physicalValue 1) false false []) ∧
    (fieldOf 1 0).toNat = (fieldOf 0 0).toNat + 1 ∧ (fieldOf 0 0).toNat < (fieldOf 1 0).toNat := ⟨rfl, rfl, by decide, by decide⟩
theorem witness_SclErrorBound :
    exec (.scl 0) (mk 6144 0 false false []) = .next (mk 6144 (physicalValue 6144) false false []) ∧
    (fieldOf 6144 0).toNat = 6144 := ⟨rfl, by decide⟩
theorem witness_InsPacksOneField : (0x00000086#32).extractLsb' 0 4 = 0x6#4 ∧ (0x00000086#32).extractLsb' 7 1 ≠ 0 ∧
    (0x00000F06#32).extractLsb' 0 4 = 0x6#4 ∧ (0x00000F06#32).extractLsb' 8 8 ≠ 0 := by decide
/-- Field 6 has a next field, field 7 has none; 8191 does not spill, 8192 does. -/
theorem witness_InsSpillsIntoTheNextField : (6#3).toNat < 7 ∧ ¬ (7#3).toNat < 7 ∧ (8191#16).toNat < 8192 ∧
    ¬ (8192#16).toNat < 8192 ∧ (0 < 8 ∧ 0 ≠ (6#3).toNat ∧ 0 ≠ (6#3).toNat + 1) := by decide
/-- The spill of field 5 crosses from byte 9 into byte 10 (X76). -/
theorem witness_InsChangesOnlyTheBytesOfItsBits : 10 < 13 ∧
    (after (mk 0 0 false false []) 0xE0000056#32).map (fun t => (byteOf t.buf 9, byteOf t.buf 10, byteOf t.buf 11)) =
      some (0xC0, 0x01, 0) := by decide
/-- The fields written in reverse order, as in P4 of 95_test_vectors.md. -/
theorem witness_EncodeOfDecodedFieldsIsTheBuffer : (at5 []).phase = .running 5 ∧
    ([7, 6, 5, 4, 3, 2, 1, 0] : List (BitVec 3)).Perm [0, 1, 2, 3, 4, 5, 6, 7] := by decide
theorem witness_DecodeOfEncodedFieldsIsTheFields : (at5 []).phase = .running 5 ∧
    ([0, 2, 4, 6, 1, 3, 5, 7] : List (BitVec 3)).Perm [0, 1, 2, 3, 4, 5, 6, 7] := by decide

end Sys2Proof.Tests
end

/-!
PROOFS: the family 00_scope.md (the step, and the binary64 arithmetic of R10).
-/
namespace Sys2Proof.Proofs

open Machine

/-! ### The step, one input at a time -/

/-- A step performs the first listed input on the state that holds the others. -/
theorem step_of_pending_cons {s : State} {e : Edge} {es : List Edge} (h : s.pending = e :: es) :
    step s = performEdge e (s.withPending es) := by
  simp [step, State.nextEdge, State.dropEdge, h]

theorem performWord_of_decode {c : Word} {i : Instr} (h : decode c = .ok i) (s : State) :
    performWord c s = exec i s := by
  simp [performWord, h]

/-- After the first reset, a presented word is performed with the command index advanced (R31 of 10_state.md). -/
theorem step_of_pending_command {s : State} {k : Nat} {c : Word} {es : List Edge} (hphase : s.phase = .running k)
    (hpending : s.pending = Edge.command c :: es) :
    step s = performWord c ((s.withPending es).withPhase (.running (k + 1))) := by
  rw [step_of_pending_cons hpending]
  exact performEdge_command rfl rfl hphase

/-- Settles O8: the presented word is performed, and a word that decodes is performed by exec. -/
theorem stepRunsTheDecodedInstruction : Obligations.StepRunsTheDecodedInstruction := by
  intro s k c es i hphase hpending hdecode
  rw [step_of_pending_command hphase hpending, performWord_of_decode hdecode]
  rfl

/-! ### f64 depends on the rational alone -/

/-- The exponent `floorLog2` finds is a function of the quotient. -/
theorem floorLog2_eq_log {a d : Nat} (ha : 0 < a) (hd : 0 < d) : floorLog2 a d = Int.log 2 ((a : ℚ) / d) := by
  obtain ⟨hle, hlt⟩ := floorLog2_spec a d ha hd
  have hdq : (0 : ℚ) < d := by exact_mod_cast hd
  have hq : (0 : ℚ) < (a : ℚ) / d := by positivity
  apply le_antisymm
  · rw [← Int.zpow_le_iff_le_log (by norm_num) hq, Nat.cast_ofNat, le_div_iff₀ hdq, mul_comm]
    exact hle
  · rw [← Int.lt_add_one_iff, ← Int.lt_zpow_iff_log_lt (by norm_num) hq, Nat.cast_ofNat, div_lt_iff₀ hdq, mul_comm]
    exact hlt

section Scaling

variable {c : Nat} (hc : 0 < c)
include hc

theorem roundHalfEven_mul_right (n d : Nat) : roundHalfEven (n * c) (d * c) = roundHalfEven n d := by
  have hlt : d * c < 2 * (n % d * c) ↔ d < 2 * (n % d) := by
    rw [← mul_assoc]; exact Nat.mul_lt_mul_right hc
  have heq : 2 * (n % d * c) = d * c ↔ 2 * (n % d) = d := by
    rw [← mul_assoc]; exact Nat.mul_left_inj hc.ne'
  simp only [roundHalfEven, Nat.mul_div_mul_right _ _ hc, Nat.mul_mod_mul_right, hlt, heq]

theorem significand_mul_right (a d : Nat) (e : Int) : significand (a * c) (d * c) e = significand a d e := by
  simp only [significand, mul_right_comm _ c, roundHalfEven_mul_right hc]

theorem lastPlace_mul_right {a d : Nat} (ha : 0 < a) (hd : 0 < d) : lastPlace (a * c) (d * c) = lastPlace a d := by
  have hcq : (c : ℚ) ≠ 0 := by exact_mod_cast hc.ne'
  have hlog : floorLog2 (a * c) (d * c) = floorLog2 a d := by
    rw [floorLog2_eq_log (Nat.mul_pos ha hc) (Nat.mul_pos hd hc), floorLog2_eq_log ha hd, Nat.cast_mul, Nat.cast_mul,
      mul_div_mul_right _ _ hcq]
  rw [lastPlace, lastPlace, hlog]

/-- Expanding the fraction leaves f64 as it is. -/
theorem f64_mul_right (n : Int) {d : Nat} (hd : 0 < d) : f64 (n * c) (d * c) = f64 n d := by
  by_cases hn : n = 0
  · simp [f64, hn]
  · have hcz : (0 : Int) < c := by exact_mod_cast hc
    have hneg : n * c < 0 ↔ n < 0 :=
      ⟨fun h => neg_of_mul_neg_left h hcz.le, fun h => mul_neg_of_neg_of_pos h hcz⟩
    have habs : (n * (c : Int)).natAbs = n.natAbs * c := by rw [Int.natAbs_mul, Int.natAbs_natCast]
    simp only [f64, if_neg hn, if_neg (mul_ne_zero hn hcz.ne'), habs, hneg,
      lastPlace_mul_right hc (Int.natAbs_pos.mpr hn) hd, significand_mul_right hc]

end Scaling

/-- Two fractions of one rational have one f64: both are expanded to the product of the denominators. -/
theorem f64_congr {n n' : Int} {d d' : Nat} (hd : 0 < d) (hd' : 0 < d') (h : (n : ℚ) / d = (n' : ℚ) / d') :
    f64 n d = f64 n' d' := by
  have hdq : (d : ℚ) ≠ 0 := by exact_mod_cast hd.ne'
  have hdq' : (d' : ℚ) ≠ 0 := by exact_mod_cast hd'.ne'
  have hcross : n * d' = n' * d := by
    rw [div_eq_div_iff hdq hdq'] at h
    exact_mod_cast h
  calc f64 n d = f64 (n * d') (d * d') := (f64_mul_right hd' n hd).symm
    _ = f64 (n' * d) (d' * d) := by rw [hcross, mul_comm d d']
    _ = f64 n' d' := f64_mul_right hd n' hd'

@[simp] theorem f64_zero (d : Nat) : f64 0 d = 0#64 := rfl

theorem valDen_ne_zero (x : Result) : (valDen x : ℚ) ≠ 0 := by exact_mod_cast (valDen_pos x).ne'

/-- Multiplication rounds the exact product. -/
theorem f64Mul_eq_f64 {a b : Result} {n : Int} {d : Nat} (hd : 0 < d) (h : (n : ℚ) / d = valRat a * valRat b) :
    f64Mul a b = f64 n d := by
  refine f64_congr (Nat.mul_pos (valDen_pos a) (valDen_pos b)) hd ?_
  rw [h, valRat, valRat, div_mul_div_comm]
  push_cast
  rfl

/-- Subtraction rounds the exact difference. -/
theorem f64Sub_eq_f64 {a b : Result} {n : Int} {d : Nat} (hd : 0 < d) (h : (n : ℚ) / d = valRat a - valRat b) :
    f64Sub a b = f64 n d := by
  refine f64_congr (Nat.mul_pos (valDen_pos a) (valDen_pos b)) hd ?_
  rw [h, valRat, valRat, div_sub_div _ _ (valDen_ne_zero a) (valDen_ne_zero b)]
  push_cast
  ring

theorem f64Sub_of_valRat_eq {a b : Result} (h : valRat a = valRat b) : f64Sub a b = 0#64 := by
  rw [f64Sub_eq_f64 (n := 0) Nat.one_pos (by simp [h]), f64_zero]

/-- Settles O42: fractions of one rational expand to a common fraction, which f64 does not tell from either, and the fractions
the operations write are those of the exact product and difference. -/
theorem f64OperationsRoundTheExactResult : Obligations.F64OperationsRoundTheExactResult :=
  ⟨fun _ _ _ _ hd hd' h => f64_congr hd hd' h, fun _ _ _ _ hd h => f64Mul_eq_f64 hd h,
    fun _ _ _ _ hd h => f64Sub_eq_f64 hd h, fun _ _ h => f64Sub_of_valRat_eq h⟩

/-! ### f64 is the nearest binary64 value -/

theorem significandOf_lt (x : Result) : significandOf x < 2 ^ 53 := by
  have hF : fractionField x < 2 ^ 52 := Nat.mod_lt _ (by norm_num)
  unfold significandOf
  split <;> omega

/-- Where binary64 values can lie, seen from the last place e: on the multiples of 2^e, or, above the subnormals, nearer to 0
than the numbers with last place e are. -/
def OnGrid (e : Int) (w : ℚ) : Prop := (∃ k : Int, w = k * 2 ^ e) ∨ (-1074 < e ∧ |w| < 2 ^ 52 * 2 ^ e)

theorem OnGrid.neg {e : Int} {w : ℚ} (h : OnGrid e w) : OnGrid e (-w) := by
  rcases h with ⟨k, rfl⟩ | ⟨he, hw⟩
  · exact .inl ⟨-k, by push_cast; ring⟩
  · exact .inr ⟨he, by rwa [abs_neg]⟩

/-- A significand in units of 2^p is a multiple of 2^e when e ≤ p, and too small for last place e otherwise. -/
theorem onGrid_of_significand {S : Nat} {p e : Int} (hS : S < 2 ^ 53) (hp : -1074 ≤ p) : OnGrid e (S * 2 ^ p) := by
  rcases le_or_gt e p with hep | hpe
  · refine .inl ⟨S * 2 ^ (p - e).toNat, ?_⟩
    have hsplit : (2 : ℚ) ^ p = 2 ^ (p - e).toNat * 2 ^ e := by
      rw [← zpow_natCast, ← zpow_add₀ (by norm_num)]
      congr 1
      omega
    rw [hsplit]
    push_cast
    ring
  · refine .inr ⟨by omega, ?_⟩
    have hSq : (S : ℚ) < 2 ^ 53 := by exact_mod_cast hS
    rw [abs_of_nonneg (by positivity)]
    calc (S : ℚ) * 2 ^ p < 2 ^ 53 * 2 ^ p := by gcongr
      _ = 2 ^ 52 * 2 ^ (p + 1) := by rw [zpow_add₀ (by norm_num)]; ring
      _ ≤ 2 ^ 52 * 2 ^ e := by gcongr <;> [norm_num; omega]

theorem onGrid_valRat (y : Result) (e : Int) : OnGrid e (valRat y) := by
  have h : OnGrid e (significandOf y * 2 ^ ((max (exponentField y) 1 : ℕ) - 1075 : ℤ)) :=
    onGrid_of_significand (significandOf_lt y) (by omega)
  rw [valRat_eq]
  split
  · simpa using h.neg
  · simpa using h

/-- A natural number m within half of u is a nearest integer to u: a different integer as near leaves m half away. -/
theorem abs_sub_le_of_integer {m : Nat} {u : ℚ} (hm : |(m : ℚ) - u| ≤ 1 / 2) (k : Int) :
    |(m : ℚ) - u| ≤ |k - u| ∧ (|(k : ℚ) - u| = |(m : ℚ) - u| → (k : ℚ) ≠ m → |(m : ℚ) - u| = 1 / 2) := by
  by_cases hk : k = m
  · subst hk
    exact ⟨by simp, fun _ h => absurd (by simp) h⟩
  · have hapart : (1 : ℚ) ≤ |(k : ℚ) - m| := by
      exact_mod_cast Int.one_le_abs (sub_ne_zero.mpr hk)
    have htri : |(k : ℚ) - m| ≤ |k - u| + |m - u| := by
      rw [abs_sub_comm (m : ℚ)]; exact abs_sub_le _ _ _
    exact ⟨by linarith, fun h _ => by linarith⟩

/-- A number below an integer c that u reaches is further from u than m is, since c is no nearer than m. -/
theorem abs_sub_lt_of_lt_integer {m : Nat} {u v : ℚ} {c : Int} (hm : |(m : ℚ) - u| ≤ 1 / 2) (hv : v < c) (hu : c ≤ u) :
    |(m : ℚ) - u| < |v - u| := by
  calc |(m : ℚ) - u| ≤ |c - u| := (abs_sub_le_of_integer hm c).1
    _ = u - c := by rw [abs_sub_comm, abs_of_nonneg (by linarith)]
    _ < u - v := by linarith
    _ = |v - u| := by rw [abs_sub_comm, abs_of_nonneg (by linarith)]

/-- The magnitude f64 rounds a/d to: the significand in units of the last place. -/
def roundedValue (a d : Nat) : ℚ := significand a d (lastPlace a d) * 2 ^ lastPlace a d

/-- A distance, counted in units of 2^e. -/
theorem abs_mul_zpow_sub (v x : ℚ) (e : Int) : |v * 2 ^ e - x| = |v - x / 2 ^ e| * 2 ^ e := by
  have hpos : (0 : ℚ) < 2 ^ e := by positivity
  rw [← abs_of_pos hpos, ← abs_mul, abs_of_pos hpos, sub_mul, div_mul_cancel₀ _ hpos.ne']

/-- The bound of the finite range, for rational numbers (k stays a variable: 2^971 is not to be evaluated). -/
theorem div_le_of_le_mul {a d k : Nat} (hd : 0 < d) (hmax : a ≤ (2 ^ 53 - 1) * 2 ^ k * d) :
    (a : ℚ) / d ≤ (2 ^ 53 - 1) * 2 ^ (k : Int) := by
  rw [div_le_iff₀ (by exact_mod_cast hd)]
  norm_num at hmax ⊢
  exact_mod_cast hmax

section Rounded

variable {a d : Nat} (ha : 0 < a) (hd : 0 < d)
include ha hd

/-- No point of the grid is nearer to a/d than its rounded value; where a different one is as near, the significand is
even. -/
theorem roundedValue_nearest {w : ℚ} (hw : OnGrid (lastPlace a d) w) :
    |roundedValue a d - (a : ℚ) / d| ≤ |w - (a : ℚ) / d| ∧
    (|w - (a : ℚ) / d| = |roundedValue a d - (a : ℚ) / d| → w ≠ roundedValue a d →
      significand a d (lastPlace a d) % 2 = 0) := by
  obtain ⟨hhalf, heven⟩ := significand_spec a d hd (lastPlace a d)
  have hpos : (0 : ℚ) < 2 ^ lastPlace a d := by positivity
  rcases hw with ⟨k, rfl⟩ | ⟨he, hw⟩
  · obtain ⟨hle, htie⟩ := abs_sub_le_of_integer hhalf k
    simp only [roundedValue, abs_mul_zpow_sub, mul_le_mul_iff_left₀ hpos, mul_left_inj' hpos.ne', ne_eq]
    exact ⟨hle, fun h hne => heven (htie h hne)⟩
  · obtain ⟨-, -, hnormal⟩ := lastPlace_spec a d ha hd
    have hv : w / 2 ^ lastPlace a d < ((2 ^ 52 : Int) : ℚ) := by
      rw [div_lt_iff₀ hpos]
      exact_mod_cast (abs_lt.mp hw).2
    have hlt := abs_sub_lt_of_lt_integer hhalf hv (by exact_mod_cast hnormal.resolve_left he.ne')
    have hfar : |roundedValue a d - (a : ℚ) / d| < |w - (a : ℚ) / d| := by
      rw [← div_mul_cancel₀ w hpos.ne', roundedValue, abs_mul_zpow_sub, abs_mul_zpow_sub]
      exact mul_lt_mul_of_pos_right hlt hpos
    exact ⟨hfar.le, fun h => absurd h hfar.ne'⟩

/-- A quotient up to the largest finite value has a last place up to 971, and at 971 does not pass the largest significand. -/
theorem lastPlace_le_of_finite (hmax : a ≤ (2 ^ 53 - 1) * 2 ^ 971 * d) :
    lastPlace a d ≤ 971 ∧ (lastPlace a d = 971 → (a : ℚ) / d / 2 ^ lastPlace a d ≤ 2 ^ 53 - 1) := by
  obtain ⟨-, -, hnormal⟩ := lastPlace_spec a d ha hd
  have hq : (a : ℚ) / d ≤ (2 ^ 53 - 1) * 2 ^ (971 : Int) := by
    simpa only [Nat.cast_ofNat] using div_le_of_le_mul hd hmax
  refine ⟨?_, fun he => ?_⟩
  · by_contra! hbig
    have hlow : (2 : ℚ) ^ 52 * 2 ^ lastPlace a d ≤ a / d := by
      rw [← le_div_iff₀ (by positivity)]
      exact hnormal.resolve_left (by omega)
    have hstep : (2 : ℚ) ^ 52 * 2 ^ ((971 : Int) + 1) ≤ 2 ^ 52 * 2 ^ lastPlace a d := by
      gcongr <;> [norm_num; omega]
    rw [zpow_add₀ (by norm_num)] at hstep
    have hpos : (0 : ℚ) < 2 ^ (971 : Int) := by positivity
    generalize (2 : ℚ) ^ (971 : Int) = p at *
    linarith
  · rw [he, div_le_iff₀ (by positivity)]
    exact hq

/-- The significand of a quotient has at most 53 bits, or is 2^53; 53 bits it has unless the last place is the
subnormals'; and at the largest last place the finite range leaves it below 2^53. -/
theorem significand_bounds (hmax : a ≤ (2 ^ 53 - 1) * 2 ^ 971 * d) :
    significand a d (lastPlace a d) ≤ 2 ^ 53 ∧
    (2 ^ 52 ≤ significand a d (lastPlace a d) ∨ lastPlace a d = -1074) ∧
    (lastPlace a d = 971 → significand a d (lastPlace a d) < 2 ^ 53) := by
  obtain ⟨-, hu, hnormal⟩ := lastPlace_spec a d ha hd
  obtain ⟨-, htop⟩ := lastPlace_le_of_finite ha hd hmax
  obtain ⟨hlow, hhigh⟩ := abs_le.mp (significand_spec a d hd (lastPlace a d)).1
  generalize significand a d (lastPlace a d) = m at *
  refine ⟨?_, hnormal.symm.imp_left fun h => ?_, fun he => ?_⟩
  · have : (m : ℚ) < 2 ^ 53 + 1 := by linarith
    exact Nat.lt_succ_iff.mp (by exact_mod_cast this)
  · have : (2 : ℚ) ^ 52 < m + 1 := by linarith
    exact Nat.lt_succ_iff.mp (by exact_mod_cast this)
  · have : (m : ℚ) < 2 ^ 53 := by linarith [htop he]
    exact_mod_cast this

end Rounded

section FiniteRange

variable {n : Int} {d : Nat} (hn : n ≠ 0)
include hn

theorem abs_sign_eq_one : |(n.sign : ℚ)| = 1 := by
  rcases lt_or_gt_of_ne hn with h | h
  · simp [Int.sign_eq_neg_one_of_neg h]
  · simp [Int.sign_eq_one_of_pos h]

theorem sign_mul_sign_mul (x : ℚ) : (n.sign : ℚ) * (n.sign * x) = x := by
  rw [← mul_assoc, ← abs_mul_abs_self, abs_sign_eq_one hn, one_mul, one_mul]

/-- A distance from n/d is that of the magnitudes, where the signs agree. -/
theorem abs_sign_mul_sub (w : ℚ) (d : Nat) : |n.sign * w - (n : ℚ) / d| = |w - (n.natAbs : ℚ) / d| := by
  have hsplit : (n : ℚ) = n.sign * n.natAbs := by
    rw [← Int.cast_natCast, ← Int.cast_mul, Int.sign_mul_natAbs]
  have hfactor : n.sign * w - (n : ℚ) / d = n.sign * (w - (n.natAbs : ℚ) / d) := by
    rw [mul_sub, ← mul_div_assoc, ← hsplit]
  rw [hfactor, abs_mul, abs_sign_eq_one hn, one_mul]

/-- Every binary64 value is the sign of n times a point of the grid. -/
theorem exists_valRat_eq_sign_mul (y : Result) (e : Int) : ∃ w, valRat y = n.sign * w ∧ OnGrid e w := by
  refine ⟨n.sign * valRat y, (sign_mul_sign_mul hn _).symm, ?_⟩
  rcases lt_or_gt_of_ne hn with h | h
  · simpa [Int.sign_eq_neg_one_of_neg h] using (onGrid_valRat y e).neg
  · simpa [Int.sign_eq_one_of_pos h] using onGrid_valRat y e

/-- f64 over the finite range: a finite pattern with the sign of n and the rounded magnitude, whose significand is even when
the rounded one is. -/
theorem f64_finite (hd : 0 < d) (hmax : n.natAbs ≤ (2 ^ 53 - 1) * 2 ^ 971 * d) :
    exponentField (f64 n d) < 2047 ∧ ((f64 n d).msb = true ↔ n < 0) ∧
    valRat (f64 n d) = n.sign * roundedValue n.natAbs d ∧
    (significand n.natAbs d (lastPlace n.natAbs d) % 2 = 0 → significandOf (f64 n d) % 2 = 0) := by
  have ha : 0 < n.natAbs := Int.natAbs_pos.mpr hn
  obtain ⟨hm, hm', htop⟩ := significand_bounds ha hd hmax
  obtain ⟨hmsb, hfin, hval, hsig, hcarry⟩ := f64_fields n d hn _ _ rfl rfl (lastPlace_spec _ d ha hd).1
    (lastPlace_le_of_finite ha hd hmax).1 hm hm' htop
  refine ⟨hfin, hmsb, ?_, fun heven => ?_⟩
  · rw [valRat_eq, mul_assoc, hval, roundedValue]
    rcases lt_or_gt_of_ne hn with h | h
    · simp [hmsb, h, Int.sign_eq_neg_one_of_neg h]
    · simp [hmsb, h.le, Int.sign_eq_one_of_pos h]
  · rcases hm.lt_or_eq with h | h
    · rwa [hsig h]
    · rw [hcarry h]; norm_num

end FiniteRange

theorem valRat_zero : valRat 0#64 = 0 := by
  simp [valRat, show valNum 0#64 = 0 by decide]

/-- Settles O41: f64 of a rational other than 0 is the sign of the rational times its rounded magnitude, and every finite
binary64 value is that sign times a point of the grid, to none of which the magnitude is nearer. -/
theorem f64RoundsToNearestTiesToEven : Obligations.F64RoundsToNearestTiesToEven := by
  intro n d hd hmax
  by_cases hn : n = 0
  · subst hn
    rw [f64_zero, valRat_zero]
    refine ⟨by decide, by decide, fun y _ => by simp, fun y _ htie hne => absurd ?_ hne⟩
    simpa using htie
  · obtain ⟨hfin, hmsb, hval, heven⟩ := f64_finite hn hd hmax
    have ha : 0 < n.natAbs := Int.natAbs_pos.mpr hn
    refine ⟨hfin, hmsb, fun y _ => ?_, fun y _ htie hne => heven ?_⟩
    · obtain ⟨w, hw, hgrid⟩ := exists_valRat_eq_sign_mul hn y (lastPlace n.natAbs d)
      rw [hval, hw, abs_sign_mul_sub hn, abs_sign_mul_sub hn]
      exact (roundedValue_nearest ha hd hgrid).1
    · obtain ⟨w, hw, hgrid⟩ := exists_valRat_eq_sign_mul hn y (lastPlace n.natAbs d)
      rw [hval, hw, abs_sign_mul_sub hn, abs_sign_mul_sub hn] at htie
      rw [hval, hw] at hne
      exact (roundedValue_nearest ha hd hgrid).2 htie fun h => hne (by rw [h])

end Sys2Proof.Proofs

/-!
PROOFS: the family 10_state.md (the registers, the status bits, the command index and the ports).
-/
namespace Sys2Proof.Proofs

open Machine Safety

/-! ### The decoder in the terms of R64's table -/

theorem immOf_eq_append (c : Word) : immOf c = immHighOf c ++ datumOf c :=
  (BitVec.extractLsb'_append_extractLsb'_eq_extractLsb' (start₁ := 16) (len₁ := 8) (start₂ := 24) rfl).symm

theorem immOf_eq_zero_iff (c : Word) : immOf c = 0#16 ↔ datumOf c = 0#8 ∧ immHighOf c = 0#8 := by
  rw [immOf_eq_append]
  refine ⟨fun h => ⟨?_, ?_⟩, fun ⟨hdatum, hhigh⟩ => by rw [hdatum, hhigh]; rfl⟩
  · rw [← BitVec.extractLsb'_append_eq_right (a := immHighOf c) (b := datumOf c), h]; rfl
  · rw [← BitVec.extractLsb'_append_eq_left (a := immHighOf c) (b := datumOf c), h]; rfl

/-- A word is determined by its fields (R61 of 30_encoding.md), IMM taken in its two halves. Those of v are written as bit
ranges, which simp evaluates where v is a literal. -/
theorem word_eq_iff_fields (c v : Word) : c = v ↔
    opOf c = v.extractLsb' 0 4 ∧ fiOf c = v.extractLsb' 4 3 ∧ z0Of c = v.extractLsb' 7 1 ∧ biOf c = v.extractLsb' 8 4 ∧
      z1Of c = v.extractLsb' 12 4 ∧ datumOf c = v.extractLsb' 16 8 ∧ immHighOf c = v.extractLsb' 24 8 := by
  refine ⟨fun h => h ▸ ⟨rfl, rfl, rfl, rfl, rfl, rfl, rfl⟩, fun ⟨hop, hfi, hz0, hbi, hz1, hdatum, hhigh⟩ => ?_⟩
  have himm : immOf c = immOf v := by rw [immOf_eq_append, immOf_eq_append, hdatum, hhigh]; rfl
  rw [word_eq_fields c, word_eq_fields v, hop, hfi, hz0, hbi, hz1, himm]
  rfl

/-- A masked comparison, field by field. -/
theorem masked_eq_iff_fields (c m v : Word) : c &&& m = v ↔
    opOf c &&& m.extractLsb' 0 4 = v.extractLsb' 0 4 ∧ fiOf c &&& m.extractLsb' 4 3 = v.extractLsb' 4 3 ∧
      z0Of c &&& m.extractLsb' 7 1 = v.extractLsb' 7 1 ∧ biOf c &&& m.extractLsb' 8 4 = v.extractLsb' 8 4 ∧
      z1Of c &&& m.extractLsb' 12 4 = v.extractLsb' 12 4 ∧ datumOf c &&& m.extractLsb' 16 8 = v.extractLsb' 16 8 ∧
      immHighOf c &&& m.extractLsb' 24 8 = v.extractLsb' 24 8 := by
  rw [word_eq_iff_fields]
  simp only [opOf, fiOf, z0Of, biOf, z1Of, datumOf, immHighOf, BitVec.extractLsb'_and]

theorem and_eq_self_of_eq_allOnes {w : Nat} {x m : BitVec w} (h : m = BitVec.allOnes w) : x &&& m = x := by
  rw [h, BitVec.and_allOnes]

/-- The decoder answers an instruction exactly for the words that match its row of R64 (the mask of NOP and CLR is all
ones) and, in the indexed rows, have a legal byte index. -/
theorem decode_eq_ok_iff (c : Word) (i : Instr) : decode c = .ok i ↔
    (c = 0x00000000#32 ∧ i = .nop) ∨
    (c = 0x00000001#32 ∧ i = .clr) ∨
    (c &&& 0xFF00F0FF#32 = 0x00000002#32 ∧ byteIndexLegal (biOf c) = true ∧ i = .wrb (biOf c) (datumOf c)) ∨
    (c &&& 0xFFFFF0FF#32 = 0x00000003#32 ∧ byteIndexLegal (biOf c) = true ∧ i = .rdb (biOf c)) ∨
    (c &&& 0xFFFFFF8F#32 = 0x00000004#32 ∧ i = .ext (fiOf c)) ∨
    (c &&& 0xFFFFFF8F#32 = 0x00000005#32 ∧ i = .scl (fiOf c)) ∨
    (c &&& 0x0000FF8F#32 = 0x00000006#32 ∧ i = .ins (fiOf c) (immOf c)) := by
  simp only [masked_eq_iff_fields, word_eq_iff_fields c, BitVec.reduceExtractLsb', and_eq_self_of_eq_allOnes,
    BitVec.and_zero, BitVec.reduceAllOnes, true_and, and_true, decode, BitVec.ofNat_eq_ofNat, immOf_eq_zero_iff]
  by_cases h0 : opOf c = 0#4
  · simp [h0, ite_eq_iff, @eq_comm _ i]
  by_cases h1 : opOf c = 1#4
  · simp [h1, ite_eq_iff, @eq_comm _ i]
  by_cases h2 : opOf c = 2#4
  · simp [h2, ite_eq_iff, @eq_comm _ i, and_assoc]
  by_cases h3 : opOf c = 3#4
  · simp [h3, ite_eq_iff, @eq_comm _ i, and_assoc]
  by_cases h4 : opOf c = 4#4
  · simp [h4, ite_eq_iff, @eq_comm _ i]
  by_cases h5 : opOf c = 5#4
  · simp [h5, ite_eq_iff, @eq_comm _ i]
  by_cases h6 : opOf c = 6#4
  · simp [h6, ite_eq_iff, @eq_comm _ i]
  · simp [h0, h1, h2, h3, h4, h5, h6]

/-- The legality check of R66 accepts exactly the words that decode. -/
theorem legal_iff_exists_decode (c : Word) : legal c = true ↔ ∃ i, decode c = .ok i := by
  simp [legal, opcodeTable, rowMatches, decode_eq_ok_iff, exists_or, and_eq_self_of_eq_allOnes]

theorem decode_eq_ins_iff (c : Word) (f : BitVec 3) (v : InsValue) :
    decode c = .ok (.ins f v) ↔ c &&& 0x0000FF8F#32 = 0x00000006#32 ∧ f = fiOf c ∧ v = immOf c := by
  simp [decode_eq_ok_iff]

theorem wf_of_decode {c : Word} {i : Instr} (h : decode c = .ok i) : i.wf = true := by
  rcases (decode_eq_ok_iff c i).mp h with
    ⟨-, rfl⟩ | ⟨-, rfl⟩ | ⟨-, hj, rfl⟩ | ⟨-, hj, rfl⟩ | ⟨-, rfl⟩ | ⟨-, rfl⟩ | ⟨-, rfl⟩
  exacts [rfl, rfl, hj, hj, rfl, rfl, rfl]

/-! ### What a command, a word and an edge can do to the state -/

section Exec

variable {i : Instr} {s t : State} (h : exec i s = .next t)
include h

/-- BUF is written by CLR, WRB and INS (R20). -/
theorem exec_buf_ne (hne : t.buf ≠ s.buf) : i = .clr ∨ (∃ j d, i = .wrb j d) ∨ ∃ f v, i = .ins f v := by
  rcases exec_cases h with ⟨-, rfl⟩ | ⟨rfl, rfl⟩ | ⟨j, d, rfl, -, rfl⟩ | ⟨j, -, -, rfl⟩ | ⟨f, -, rfl⟩ | ⟨f, -, rfl⟩ |
    ⟨f, v, rfl, rfl⟩ | ⟨-, rfl⟩ <;> simp at hne ⊢

/-- RES is written by RDB, EXT and SCL (R20). -/
theorem exec_res_ne (hne : t.res ≠ s.res) : (∃ j, i = .rdb j) ∨ (∃ f, i = .ext f) ∨ ∃ f, i = .scl f := by
  rcases exec_cases h with ⟨-, rfl⟩ | ⟨-, rfl⟩ | ⟨j, d, -, -, rfl⟩ | ⟨j, rfl, -, rfl⟩ | ⟨f, rfl, rfl⟩ | ⟨f, rfl, rfl⟩ |
    ⟨f, v, -, rfl⟩ | ⟨-, rfl⟩ <;> simp at hne ⊢

/-- OVF is written by INS (R20, R24). -/
theorem exec_ovf_ne (hne : t.ovf ≠ s.ovf) : ∃ f v, i = .ins f v := by
  rcases exec_cases h with ⟨-, rfl⟩ | ⟨-, rfl⟩ | ⟨j, d, -, -, rfl⟩ | ⟨j, -, -, rfl⟩ | ⟨f, -, rfl⟩ | ⟨f, -, rfl⟩ |
    ⟨f, v, rfl, rfl⟩ | ⟨-, rfl⟩ <;> simp at hne ⊢

/-- No legal command writes ILL (R25). -/
theorem exec_ill_of_wf (hwf : i.wf = true) : t.ill = s.ill := by
  rcases exec_cases h with ⟨-, rfl⟩ | ⟨-, rfl⟩ | ⟨j, d, -, -, rfl⟩ | ⟨j, -, -, rfl⟩ | ⟨f, -, rfl⟩ | ⟨f, -, rfl⟩ |
    ⟨f, v, -, rfl⟩ | ⟨hill, -⟩
  exacts [rfl, rfl, rfl, rfl, rfl, rfl, rfl, by simp [hwf] at hill]

end Exec

section Word

variable {c : Word} {s t : State} (h : performWord c s = .next t)
include h

theorem performWord_cases : (∃ i, decode c = .ok i ∧ exec i s = .next t) ∨ (legal c = false ∧ t = s.raiseIllegal) := by
  cases hdecode : decode c with
  | ok i => exact .inl ⟨i, rfl, by rwa [performWord_of_decode hdecode] at h⟩
  | error r =>
    have hillegal : legal c = false := by
      simpa [hdecode] using (legal_iff_exists_decode c).not
    exact .inr ⟨hillegal, by simpa [performWord, hdecode, eq_comm] using h⟩

theorem performWord_phase : t.phase = s.phase := by
  obtain ⟨u, hu, hphase, -⟩ := performWord_next c s
  cases h.symm.trans hu
  exact hphase

theorem performWord_ill : t.ill = (s.ill || !legal c) := by
  rcases performWord_cases h with ⟨i, hdecode, hexec⟩ | ⟨hillegal, rfl⟩
  · simp [exec_ill_of_wf hexec (wf_of_decode hdecode), (legal_iff_exists_decode c).mpr ⟨i, hdecode⟩]
  · simp [hillegal]

theorem performWord_ovf : t.ovf =
    if c &&& 0x0000FF8F#32 = 0x00000006#32 then decide (8192 ≤ (immOf c).toNat) else s.ovf := by
  split
  next hins =>
    rw [performWord_of_decode ((decode_eq_ins_iff c _ _).mpr ⟨hins, rfl, rfl⟩)] at h
    cases h
    rfl
  next hother =>
    rcases performWord_cases h with ⟨i, hdecode, hexec⟩ | ⟨-, rfl⟩
    · by_contra hne
      obtain ⟨f, v, rfl⟩ := exec_ovf_ne hexec hne
      exact hother ((decode_eq_ins_iff c f v).mp hdecode).1
    · rfl

end Word

section Edge

variable {e : Edge} {s t : State} (h : performEdge e s = .next t)
include h

/-- After the first reset an edge without reset is idle, or performs its word with the command index advanced. -/
theorem performEdge_cases_of_running {k : Nat} (hphase : s.phase = .running k) (hrst : e.rst = false) :
    (e.cmdValid = false ∧ t = s) ∨
    (e.cmdValid = true ∧ performWord e.cmd (s.withPhase (.running (k + 1))) = .next t) := by
  cases hvalid : e.cmdValid with
  | false =>
    rw [performEdge_idle hrst hvalid hphase] at h
    cases h
    exact .inl ⟨rfl, rfl⟩
  | true => exact .inr ⟨rfl, by rwa [performEdge_command hrst hvalid hphase] at h⟩

/-- The four kinds of edges: reset, without meaning before the first reset, idle, performing (R124 of 60_exceptions.md). -/
theorem performEdge_cases :
    (e.rst = true ∧ t = s.resetRegisters) ∨
    (e.rst = false ∧ ∃ n, s.phase = .powerUp n ∧ t = s.drawRegisters (n + 1)) ∨
    (e.rst = false ∧ e.cmdValid = false ∧ t = s ∧ ∃ k, s.phase = .running k) ∨
    (e.rst = false ∧ e.cmdValid = true ∧ ∃ k, s.phase = .running k ∧
      performWord e.cmd (s.withPhase (.running (k + 1))) = .next t) := by
  cases hrst : e.rst with
  | true =>
    rw [performEdge_rst s hrst] at h
    cases h
    exact .inl ⟨rfl, rfl⟩
  | false =>
    cases hphase : s.phase with
    | powerUp n =>
      rw [performEdge_powerUp hrst hphase] at h
      cases h
      exact .inr (.inl ⟨rfl, n, rfl, rfl⟩)
    | running k =>
      rcases performEdge_cases_of_running h hphase hrst with ⟨hvalid, hidle⟩ | ⟨hvalid, hword⟩
      · exact .inr (.inr (.inl ⟨rfl, hvalid, hidle, k, rfl⟩))
      · exact .inr (.inr (.inr ⟨rfl, hvalid, k, rfl, hword⟩))

section Running

variable {k : Nat} (hphase : s.phase = .running k) (hrst : e.rst = false)
include hphase hrst

theorem performEdge_phase : t.phase = .running (if e.cmdValid then k + 1 else k) := by
  rcases performEdge_cases_of_running h hphase hrst with ⟨hidle, rfl⟩ | ⟨hvalid, hword⟩
  · simp [hidle, hphase]
  · simp [hvalid, performWord_phase hword]

theorem performEdge_ill : t.ill = (s.ill || (e.cmdValid && !legal e.cmd)) := by
  rcases performEdge_cases_of_running h hphase hrst with ⟨hidle, rfl⟩ | ⟨hvalid, hword⟩
  · simp [hidle]
  · simp [hvalid, performWord_ill hword]

theorem performEdge_ovf : t.ovf =
    if e.cmdValid = true ∧ e.cmd &&& 0x0000FF8F#32 = 0x00000006#32 then decide (8192 ≤ (immOf e.cmd).toNat)
    else s.ovf := by
  rcases performEdge_cases_of_running h hphase hrst with ⟨hidle, rfl⟩ | ⟨hvalid, hword⟩
  · simp [hidle]
  · simp [hvalid, performWord_ovf hword]

end Running

end Edge

/-- Settles O10: an edge that is idle after the first reset only takes its inputs off the list. -/
theorem idleEdgeKeepsEveryRegister : Obligations.IdleEdgeKeepsEveryRegister := by
  intro s k e es hphase hpending hrst hvalid
  rw [step_of_pending_cons hpending, performEdge_idle hrst hvalid (s := s.withPending es) hphase]
  rfl

theorem step_of_pending_nil {s : State} {k : Nat} (hphase : s.phase = .running k) (hpending : s.pending = []) :
    step s = .next s := by
  have hdrop : s.dropEdge = s := by
    rw [State.dropEdge, hpending, List.tail_nil, ← hpending, withPending_self]
  have hnext : s.nextEdge = Edge.idle := by rw [State.nextEdge, hpending, List.headD_nil]
  rw [step, hdrop, hnext, performEdge_idle rfl rfl hphase]

/-- Settles O16, by induction on the number of edges: an edge after the last listed input is idle and leaves the state. -/
theorem edgesAfterTheLastInputAreIdle : Obligations.EdgesAfterTheLastInputAreIdle := by
  intro s k n hphase hpending
  induction n with
  | zero => rfl
  | succ n ih => rw [runEdges, step_of_pending_nil hphase hpending]; exact ih

/-! ### Runs without reset -/

/-- A reading f of the state that every edge without reset updates by g, and that the listed inputs do not show in, is
folded by g over such a run. -/
theorem runInputs_eq_foldl {α : Type} {f : State → α} {g : α → Edge → α}
    (hpending : ∀ s es, f (s.withPending es) = f s)
    (hedge : ∀ {e s t}, performEdge e s = .next t → ∀ {k}, s.phase = .running k → e.rst = false → f t = g (f s) e)
    {es : List Edge} {s : State} {k : Nat} (hphase : s.phase = .running k) (hes : ∀ e ∈ es, e.rst = false) :
    ∃ t, runInputs es s = .next t ∧ f t = es.foldl g (f s) := by
  induction es generalizing s k with
  | nil => exact ⟨_, rfl, hpending s []⟩
  | cons e es ih =>
    obtain ⟨hrst, hes⟩ := List.forall_mem_cons.mp hes
    obtain ⟨t, ht, -⟩ := performEdge_next e (s.withPending es)
    obtain ⟨u, hu, hf⟩ := ih (performEdge_phase ht hphase hrst) hes
    exact ⟨u, by rw [runInputs_cons e es s ht, hu], by rw [hf, hedge ht hphase hrst, hpending, List.foldl_cons]⟩

theorem foldl_or_eq_any (p : Edge → Bool) (es : List Edge) (b : Bool) :
    es.foldl (fun b e => b || p e) b = (b || es.any p) := by
  induction es generalizing b with
  | nil => simp
  | cons e es ih => simp [ih, Bool.or_assoc]

/-- Settles O19: every edge of the run ORs into ILL whether it performed an illegal command. -/
theorem illIsStickyAndRecordsEveryIllegalCommand : Obligations.IllIsStickyAndRecordsEveryIllegalCommand := by
  intro es s k hphase hes
  rw [← foldl_or_eq_any]
  exact runInputs_eq_foldl (f := State.ill) (fun _ _ => rfl) performEdge_ill hphase hes

/-- Settles O20: every edge of the run sets OVF as the obligation's fold does. -/
theorem ovfReportsTheLastIns : Obligations.OvfReportsTheLastIns := fun _ _ _ hphase hes =>
  runInputs_eq_foldl (f := State.ovf) (fun _ _ => rfl) performEdge_ovf hphase hes

/-- The phase after an edge without reset: a performed command advances the index (R31). -/
def phaseAfter : Phase → Edge → Phase
  | .powerUp n, _ => .powerUp n
  | .running k, e => .running (if e.cmdValid then k + 1 else k)

theorem foldl_phaseAfter (es : List Edge) (k : Nat) :
    es.foldl phaseAfter (.running k) = .running (k + (es.filter (·.cmdValid)).length) := by
  induction es generalizing k with
  | nil => rfl
  | cons e es ih =>
    cases hvalid : e.cmdValid with
    | false => simp [phaseAfter, hvalid, ih]
    | true => simp [phaseAfter, hvalid, ih]; omega

/-- Settles O18: a reset edge sets the index to 0, and every other edge after it moves the index as `phaseAfter` says. -/
theorem commandIndexCountsPerformedCommands : Obligations.CommandIndexCountsPerformedCommands := by
  refine ⟨fun s e es hpending hrst => ?_, fun es s k hphase hes => ?_⟩
  · exact ⟨_, by rw [step_of_pending_cons hpending, performEdge_rst _ hrst], rfl⟩
  · rw [← foldl_phaseAfter, ← hphase]
    refine runInputs_eq_foldl (f := State.phase) (fun _ _ => rfl) (fun h _ hphase hrst => ?_) hphase hes
    rw [performEdge_phase h hphase hrst, hphase, phaseAfter]

/-! ### RES stays legal -/

theorem resultLegal_iff_of_running {s : State} {k : Nat} (hphase : s.phase = .running k) :
    ResultLegal s ↔ s.res.toNat < 8192 ∨ ∃ r : RawField, s.res = physicalValue r := by
  simp only [ResultLegal, hphase]

theorem resultLegal_writeRes {s : State} {v : Result} (hv : v.toNat < 8192 ∨ ∃ r : RawField, v = physicalValue r) :
    ResultLegal (s.writeRes v) := by
  cases hphase : s.phase with
  | powerUp n => simp [ResultLegal, hphase]
  | running k => exact (resultLegal_iff_of_running (s := s.writeRes v) hphase).mpr hv

/-- A value of at most 13 bits, zero-extended, is below 8192. -/
theorem toNat_setWidth_lt {w : Nat} (hw : w ≤ 13) (x : BitVec w) : (x.setWidth 64).toNat < 8192 := by
  rw [BitVec.toNat_setWidth_of_le (by omega)]
  exact x.isLt.trans_le (Nat.pow_le_pow_right (by decide) hw)

theorem exec_resultLegal {i : Instr} {s t : State} (h : exec i s = .next t) (hs : ResultLegal s) : ResultLegal t := by
  rcases exec_cases h with ⟨-, rfl⟩ | ⟨-, rfl⟩ | ⟨j, d, -, -, rfl⟩ | ⟨j, -, -, rfl⟩ | ⟨f, -, rfl⟩ | ⟨f, -, rfl⟩ |
    ⟨f, v, -, rfl⟩ | ⟨-, rfl⟩
  exacts [hs, hs, hs, resultLegal_writeRes (.inl (toNat_setWidth_lt (by decide) _)),
    resultLegal_writeRes (.inl (toNat_setWidth_lt (by decide) _)), resultLegal_writeRes (.inr ⟨_, rfl⟩), hs, hs]

theorem performWord_resultLegal {c : Word} {s t : State} (h : performWord c s = .next t) (hs : ResultLegal s) :
    ResultLegal t := by
  rcases performWord_cases h with ⟨i, -, hexec⟩ | ⟨-, rfl⟩
  · exact exec_resultLegal hexec hs
  · exact hs

/-- Settles O23: a reset edge leaves 0 in RES, before the first reset nothing is asked, an idle edge keeps the state, and a
performed word keeps the invariant. -/
theorem everyStepKeepsTheResultLegal : Obligations.EveryStepKeepsTheResultLegal := by
  intro s t hs hstep
  rcases performEdge_cases hstep with ⟨-, rfl⟩ | ⟨-, n, -, rfl⟩ | ⟨-, -, rfl, -⟩ | ⟨-, -, k, hphase, hword⟩
  · exact (resultLegal_iff_of_running rfl).mpr (.inl (by simp))
  · trivial
  · exact hs
  · refine performWord_resultLegal hword ?_
    exact (resultLegal_iff_of_running rfl).mpr ((resultLegal_iff_of_running hphase).mp hs)

/-- Settles O24: RES is 0 after reset, and before it the invariant asks nothing. -/
theorem resultIsLegalAtReset : Obligations.ResultIsLegalAtReset :=
  ⟨.inl (by decide), trivial⟩

/-! ### Which commands write a register -/

/-- Where a step changes a register f that an illegal command keeps, it is a reset, or it performed a command that writes f. -/
theorem step_changes {α : Type} {f : State → α} {writes : Instr → Prop} (hphase : ∀ s p, f (s.withPhase p) = f s)
    (hdrop : ∀ s, f s.dropEdge = f s) (hillegal : ∀ s, f s.raiseIllegal = f s)
    (hwrites : ∀ {i s t}, exec i s = .next t → f t ≠ f s → writes i)
    {s t : State} {k : Nat} (hrun : s.phase = .running k) (hstep : step s = .next t) (hne : f t ≠ f s) :
    s.nextEdge.rst = true ∨ (s.nextEdge.cmdValid = true ∧ ∃ i, decode s.nextEdge.cmd = .ok i ∧ writes i) := by
  cases hrst : s.nextEdge.rst with
  | true => exact .inl rfl
  | false =>
    rcases performEdge_cases_of_running hstep hrun hrst with ⟨-, rfl⟩ | ⟨hvalid, hword⟩
    · exact absurd (hdrop s) hne
    · rw [← hdrop s, ← hphase s.dropEdge (.running (k + 1))] at hne
      rcases performWord_cases hword with ⟨i, hdecode, hexec⟩ | ⟨-, rfl⟩
      · exact .inr ⟨hvalid, i, hdecode, hwrites hexec hne⟩
      · exact absurd (hillegal _) hne

theorem step_ill_ne {s t : State} {k : Nat} (hrun : s.phase = .running k) (hstep : step s = .next t)
    (hne : t.ill ≠ s.ill) :
    s.nextEdge.rst = true ∨ (s.nextEdge.cmdValid = true ∧ legal s.nextEdge.cmd = false) := by
  cases hrst : s.nextEdge.rst with
  | true => exact .inl rfl
  | false =>
    rw [performEdge_ill hstep hrun hrst, State.dropEdge_ill] at hne
    obtain ⟨hvalid, hillegal, -⟩ : s.nextEdge.cmdValid = true ∧ legal s.nextEdge.cmd = false ∧ s.ill = false := by
      simpa using hne
    exact .inr ⟨hvalid, hillegal⟩

/-- Settles O22: a register that changed was reset or written by the decoded command, and each command writes what the table
says; ILL is written by illegal commands alone. -/
theorem registersChangeOnlyAsTheTableSays : Obligations.RegistersChangeOnlyAsTheTableSays := by
  intro s t k hrun hstep
  have hovf := step_changes (f := State.ovf) (fun _ _ => rfl) (fun _ => rfl) (fun _ => rfl) exec_ovf_ne hrun hstep
  refine ⟨step_changes (f := State.buf) (fun _ _ => rfl) (fun _ => rfl) (fun _ => rfl) exec_buf_ne hrun hstep,
    step_changes (f := State.res) (fun _ _ => rfl) (fun _ => rfl) (fun _ => rfl) exec_res_ne hrun hstep,
    fun hne => (hovf hne).imp_right ?_, step_ill_ne hrun hstep⟩
  rintro ⟨hvalid, i, hdecode, f, v, rfl⟩
  exact ⟨hvalid, f, v, hdecode⟩

/-! ### Noninterference of the status bits -/

/-- The state with other status bits. -/
def withStatus (s : State) (o i : Bool) : State := { s with ovf := o, ill := i }

/-- Two runs, one of whose status bits goes from x to x' and the other's from y to y': the bits end alike, or both are
kept. -/
def SetAlikeOrKept (x x' y y' : Bool) : Prop := x' = y' ∨ (x' = x ∧ y' = y)

theorem SetAlikeOrKept.refl (x y : Bool) : SetAlikeOrKept x x y y := .inr ⟨rfl, rfl⟩

theorem SetAlikeOrKept.trans {x x' x'' y y' y'' : Bool} (h : SetAlikeOrKept x x' y y')
    (h' : SetAlikeOrKept x' x'' y' y'') : SetAlikeOrKept x x'' y y'' := by
  rcases h' with h' | ⟨rfl, rfl⟩
  · exact .inl h'
  · exact h

/-- From s with status bits o and i, `run` does what it does from s, and sets each status bit alike or keeps it. -/
def IgnoresStatus (run : State → Host.Outcome State Fault Refusal) (s : State) (o i : Bool) : Prop :=
  ∃ t o' i', run s = .next t ∧ run (withStatus s o i) = .next (withStatus t o' i') ∧
    SetAlikeOrKept s.ovf t.ovf o o' ∧ SetAlikeOrKept s.ill t.ill i i'

section Status

variable (s : State) (o i : Bool)

theorem raiseIllegal_ignoresStatus : IgnoresStatus (fun s => .next s.raiseIllegal) s o i :=
  ⟨_, o, true, rfl, rfl, .refl _ _, .inl rfl⟩

theorem exec_ignoresStatus (c : Instr) : IgnoresStatus (exec c) s o i := by
  cases c with
  | nop | clr | ext _ | scl _ => exact ⟨_, o, i, rfl, rfl, .refl _ _, .refl _ _⟩
  | wrb j _ | rdb j =>
    cases hj : byteIndexLegal j with
    | true => exact ⟨_, o, i, if_pos hj, if_pos hj, .refl _ _, .refl _ _⟩
    | false => exact ⟨_, o, true, if_neg (by simp [hj]), if_neg (by simp [hj]), .refl _ _, .inl rfl⟩
  | ins f v => exact ⟨_, overflows v, i, rfl, rfl, .inl rfl, .refl _ _⟩

theorem performWord_ignoresStatus (c : Word) : IgnoresStatus (performWord c) s o i := by
  unfold performWord
  cases decode c with
  | ok c => exact exec_ignoresStatus s o i c
  | error _ => exact raiseIllegal_ignoresStatus s o i

theorem performEdge_ignoresStatus (e : Edge) : IgnoresStatus (performEdge e) s o i := by
  cases hrst : e.rst with
  | true => exact ⟨_, false, false, performEdge_rst s hrst, performEdge_rst _ hrst, .inl rfl, .inl rfl⟩
  | false =>
    cases hphase : s.phase with
    | powerUp n =>
      exact ⟨_, _, _, performEdge_powerUp hrst hphase, performEdge_powerUp (s := withStatus s o i) hrst hphase,
        .inl rfl, .inl rfl⟩
    | running k =>
      cases hvalid : e.cmdValid with
      | false =>
        exact ⟨s, o, i, performEdge_idle hrst hvalid hphase,
          performEdge_idle (s := withStatus s o i) hrst hvalid hphase, .refl _ _, .refl _ _⟩
      | true =>
        rw [IgnoresStatus, performEdge_command hrst hvalid hphase,
          performEdge_command (s := withStatus s o i) hrst hvalid hphase]
        exact performWord_ignoresStatus (s.withPhase (.running (k + 1))) o i e.cmd

end Status

theorem runInputs_ignoresStatus (es : List Edge) (s : State) (o i : Bool) : IgnoresStatus (runInputs es) s o i := by
  induction es generalizing s o i with
  | nil => exact ⟨_, o, i, rfl, rfl, .refl _ _, .refl _ _⟩
  | cons e es ih =>
    obtain ⟨t, o', i', ht, ht', hovf, hill⟩ := performEdge_ignoresStatus (s.withPending es) o i e
    obtain ⟨u, o'', i'', hu, hu', hovf', hill'⟩ := ih t o' i'
    refine ⟨u, o'', i'', ?_, ?_, hovf.trans hovf', hill.trans hill'⟩
    · rw [runInputs_cons e es s ht, hu]
    · rw [runInputs_cons e es (withStatus s o i) ht', hu']

/-- Settles O21: the two runs end in states that differ in the status bits alone. -/
theorem statusBitsInfluenceNoCommand : Obligations.StatusBitsInfluenceNoCommand := by
  intro es s k o i _
  obtain ⟨t, o', i', ht, hu, hovf, hill⟩ := runInputs_ignoresStatus es s o i
  exact ⟨t, withStatus t o' i', ht, hu, rfl, rfl, rfl, hovf, hill⟩

/-! ### Idle edges and observations -/

theorem performsCommand_of_running {s : State} {k : Nat} (hphase : s.phase = .running k) :
    s.performsCommand = (!s.nextEdge.rst && s.nextEdge.cmdValid) := by
  simp only [State.performsCommand, hphase]

/-- The observation of a run after the first reset, one input at a time: a performed command adds an entry. -/
theorem observe_cons {e : Edge} {es : List Edge} {s t : State} {k n : Nat} (hphase : s.phase = .running k)
    (h : performEdge e (s.withPending es) = .next t) :
    observe (n + 1) (s.withPending (e :: es)) =
      if !e.rst && e.cmdValid then t.outputs :: observe n t else observe n t := by
  rw [observe, performsCommand_of_running (s := s.withPending (e :: es)) hphase, nextEdge_withPending_cons,
    step_of_pending_cons (s := s.withPending (e :: es)) rfl, withPending_withPending, h]

/-- Settles O25, by induction on the inputs: an idle edge adds no entry and leaves the state, and a performed command adds
the same entry and leaves the same registers whatever inputs are still to come. -/
theorem idleEdgesChangeNoObservation : Obligations.IdleEdgesChangeNoObservation := by
  intro es s k hphase hes
  change observe es.length (s.withPending es) =
    observe (es.filter (·.cmdValid)).length (s.withPending (es.filter (·.cmdValid))) ∧ _
  induction es generalizing s k with
  | nil => exact ⟨rfl, rfl⟩
  | cons e es ih =>
    obtain ⟨hrst, hes⟩ := List.forall_mem_cons.mp hes
    cases hvalid : e.cmdValid with
    | false =>
      have hidle := performEdge_idle hrst hvalid (s := s.withPending es) hphase
      obtain ⟨hobserve, hrun⟩ := ih s k hphase hes
      rw [List.filter_cons_of_neg (by simp [hvalid]), List.length_cons, observe_cons hphase hidle,
        runInputs_cons e es s hidle, ← hobserve, ← hrun]
      exact ⟨by simp [hvalid], rfl⟩
    | true =>
      obtain ⟨t, ht, -⟩ := performEdge_next e s
      obtain ⟨hobserve, hrun⟩ := ih t _ (performEdge_phase ht hphase hrst) hes
      have hedge := performEdge_withPending ht
      rw [List.filter_cons_of_pos hvalid, List.length_cons, List.length_cons, observe_cons hphase (hedge es),
        observe_cons hphase (hedge _), runInputs_cons e es s (hedge es), runInputs_cons e _ s (hedge _), hobserve]
      exact ⟨rfl, hrun⟩

/-! ### The ports -/

theorem toNat_fieldOf (b : Buffer) (i : Nat) : (fieldOf b i).toNat = b.toNat / 2 ^ (13 * i) % 2 ^ 13 := by
  rw [fieldOf, BitVec.extractLsb'_toNat, Nat.shiftRight_eq_div_pow]

/-- Port field_qi shows Field(i) (R30). -/
theorem outputs_fieldQ (s : State) (i : Nat) (hi : i < 8) : s.outputs.fieldQ[i] = fieldOf s.buf i := by
  interval_cases i <;> rfl

theorem statusPair_bits (s : State) : (statusPair s).getLsbD 0 = s.ovf ∧ (statusPair s).getLsbD 1 = s.ill := by
  rw [statusPair]
  cases s.ovf <;> cases s.ill <;> exact ⟨rfl, rfl⟩

/-- Settles O30: the ports read the registers, and a field's bits are a quotient of BUF. -/
theorem portsShowTheRegisters : Obligations.PortsShowTheRegisters := fun s =>
  ⟨rfl, rfl, rfl, rfl, fun i hi => by rw [outputs_fieldQ s i hi, toNat_fieldOf], fun _ _ => rfl, statusPair_bits s⟩

end Sys2Proof.Proofs

/-!
PROOFS: the family 20_memory.md (bytes and fields of the buffer, and performing a command twice).
-/
namespace Sys2Proof.Proofs

open Machine

/-! ### The buffer as a number: its bytes and its fields are digits -/

/-- The m lowest digits of n in base 2^w make up n below 2^(w*m). -/
theorem sum_digits_eq_mod (w m n : Nat) :
    ((List.range m).map fun i => n / 2 ^ (w * i) % 2 ^ w * 2 ^ (w * i)).sum = n % 2 ^ (w * m) := by
  induction m with
  | zero => simp [Nat.mod_one]
  | succ m ih =>
    rw [List.range_succ, List.map_append, List.sum_append, ih, List.map_singleton, List.sum_singleton, Nat.mul_succ,
      Nat.pow_add, Nat.mod_mul, Nat.mul_comm (2 ^ (w * m))]

/-- Digits that fill all 104 bits make up the buffer. -/
theorem buffer_eq_sum_digits (b : Buffer) {w m : Nat} (hwm : w * m = 104) :
    b.toNat = ((List.range m).map fun i => b.toNat / 2 ^ (w * i) % 2 ^ w * 2 ^ (w * i)).sum := by
  rw [sum_digits_eq_mod, hwm, Nat.mod_eq_of_lt b.isLt]

theorem toNat_byteOf (b : Buffer) (j : Nat) : (byteOf b j).toNat = b.toNat / 2 ^ (8 * j) % 2 ^ 8 := by
  rw [byteOf, BitVec.extractLsb'_toNat, Nat.shiftRight_eq_div_pow]

/-- Bit n of the buffer is bit n mod 8 of byte n / 8 (R42). -/
theorem getLsbD_eq_byteOf (b : Buffer) (n : Nat) : b.getLsbD n = (byteOf b (n / 8)).getLsbD (n % 8) := by
  rw [getLsbD_byteOf, decide_eq_true (Nat.mod_lt n (by decide)), Bool.true_and, Nat.div_add_mod]

/-- Settles O27: the bytes are the thirteen digits of BUF in base 2^8. -/
theorem bytesTileTheBuffer : Obligations.BytesTileTheBuffer := by
  refine fun b => ⟨fun j _ => toNat_byteOf b j, ?_, fun n _ => getLsbD_eq_byteOf b n⟩
  simp only [toNat_byteOf]
  exact buffer_eq_sum_digits b rfl

/-- Settles O28: the fields are the eight digits of BUF in base 2^13. -/
theorem fieldsTileTheBuffer : Obligations.FieldsTileTheBuffer := by
  refine fun b => ⟨fun i _ => toNat_fieldOf b i, fun i _ k hk => ?_, ?_⟩
  · rw [getLsbD_fieldOf, decide_eq_true hk, Bool.true_and]
  · simp only [toNat_fieldOf]
    exact buffer_eq_sum_digits b rfl

/-! ### WRB, RDB and INS: what exec answers, for WRB and RDB by the legality of the byte index -/

section ByteIndex

variable {j : BitVec 4}

theorem exec_wrb_of_legal (hj : byteIndexLegal j = true) (d : Byte) (s : State) :
    exec (.wrb j d) s = .next (s.writeBuf (setByte s.buf j.toNat d)) := if_pos hj

theorem exec_wrb_of_illegal (hj : byteIndexLegal j = false) (d : Byte) (s : State) :
    exec (.wrb j d) s = .next s.raiseIllegal := if_neg (by simp [hj])

theorem exec_rdb_of_legal (hj : byteIndexLegal j = true) (s : State) :
    exec (.rdb j) s = .next (s.writeRes ((byteOf s.buf j.toNat).setWidth 64)) := if_pos hj

theorem exec_rdb_of_illegal (hj : byteIndexLegal j = false) (s : State) :
    exec (.rdb j) s = .next s.raiseIllegal := if_neg (by simp [hj])

end ByteIndex

theorem exec_ins (f : BitVec 3) (v : InsValue) (s : State) :
    exec (.ins f v) s = .next ((s.writeBuf (pack s.buf f.toNat v)).writeOvf (overflows v)) := rfl

/-! ### Performing a command twice -/

theorem setByte_setByte_same (b : Buffer) (j : Nat) (d : Byte) : setByte (setByte b j d) j d = setByte b j d := by
  apply BitVec.eq_of_getLsbD_eq
  intro n hn
  rw [getLsbD_setByte _ _ _ _ hn]
  split
  next hin => rw [getLsbD_setByte _ _ _ _ hn, if_pos hin]
  next => rfl

/-- The three spilled bits of v are ORed in again, which changes nothing. -/
theorem pack_pack_same (b : Buffer) (i : Nat) (v : InsValue) : pack (pack b i v) i v = pack b i v := by
  apply BitVec.eq_of_getLsbD_eq
  intro n hn
  rw [getLsbD_pack _ _ _ _ hn, getLsbD_pack _ _ _ _ hn]
  split
  next => rfl
  next => rw [Bool.or_assoc, Bool.or_self]

theorem exec_wrb_twice (j : BitVec 4) (d : Byte) (s : State) :
    ∃ t, exec (.wrb j d) s = .next t ∧ exec (.wrb j d) t = .next t := by
  cases hj : byteIndexLegal j with
  | false => exact ⟨_, exec_wrb_of_illegal hj d s, exec_wrb_of_illegal hj d _⟩
  | true =>
    refine ⟨_, exec_wrb_of_legal hj d s, ?_⟩
    rw [exec_wrb_of_legal hj, State.writeBuf_buf, setByte_setByte_same]
    rfl

theorem exec_rdb_twice (j : BitVec 4) (s : State) : ∃ t, exec (.rdb j) s = .next t ∧ exec (.rdb j) t = .next t := by
  cases hj : byteIndexLegal j with
  | false => exact ⟨_, exec_rdb_of_illegal hj s, exec_rdb_of_illegal hj _⟩
  | true => exact ⟨_, exec_rdb_of_legal hj s, exec_rdb_of_legal hj _⟩

theorem exec_ins_twice (f : BitVec 3) (v : InsValue) (s : State) :
    ∃ t, exec (.ins f v) s = .next t ∧ exec (.ins f v) t = .next t := by
  refine ⟨_, exec_ins f v s, ?_⟩
  rw [exec_ins, State.writeOvf_buf, State.writeBuf_buf, pack_pack_same]
  rfl

/-- Settles O26: the commands that write RES or nothing read what they leave alone, CLR writes a constant, and the two buffer
writes with an operand are idempotent on the buffer. -/
theorem commandsAreIdempotent : Obligations.CommandsAreIdempotent := by
  intro i s
  cases i with
  | nop | clr | ext _ | scl _ => exact ⟨_, rfl, rfl⟩
  | wrb j d => exact exec_wrb_twice j d s
  | rdb j => exact exec_rdb_twice j s
  | ins f v => exact exec_ins_twice f v s

/-! ### A byte write seen by the fields -/

/-- Field i and byte j share a bit of the buffer. -/
def FieldMeetsByte (i j : Nat) : Prop := 13 * i ≤ 8 * j + 7 ∧ 8 * j ≤ 13 * i + 12

theorem fieldOf_setByte_of_disjoint (b : Buffer) (d : Byte) {i j : Nat} (hi : i < 8) (hdisjoint : ¬ FieldMeetsByte i j) :
    fieldOf (setByte b j d) i = fieldOf b i := by
  apply BitVec.eq_of_getLsbD_eq
  intro k hk
  rw [FieldMeetsByte] at hdisjoint
  rw [getLsbD_fieldOf, getLsbD_fieldOf, getLsbD_setByte _ _ _ _ (by omega), if_neg (by omega)]

/-- Ones written to a byte of the zero buffer show in every field it meets: at their lowest common bit. -/
theorem fieldOf_setByte_ones_ne {i j : Nat} (hj : j < 13) (hmeet : FieldMeetsByte i j) :
    fieldOf (setByte 0 j (BitVec.allOnes 8)) i ≠ fieldOf 0 i := by
  obtain ⟨hlow, hhigh⟩ := hmeet
  obtain ⟨k, hk, hbyte⟩ : ∃ k < 13, 8 * j ≤ 13 * i + k ∧ 13 * i + k < 8 * j + 8 :=
    ⟨max (13 * i) (8 * j) - 13 * i, by omega, by omega⟩
  intro heq
  have hbit := congrArg (·.getLsbD k) heq
  simp only [getLsbD_fieldOf, getLsbD_setByte _ _ _ _ (show 13 * i + k < 104 by omega), if_pos hbyte,
    BitVec.getLsbD_allOnes] at hbit
  simp [hk, show 13 * i + k - 8 * j < 8 by omega] at hbit

/-- Settles O36: WRB j keeps a field without a bit in byte j, and ones written from the reset state show in the others. -/
theorem wrbChangesExactlyTheFieldsOfItsByte : Obligations.WrbChangesExactlyTheFieldsOfItsByte := by
  intro j i hj hi
  have hexec := exec_wrb_of_legal (j := j) (decide_eq_true hj)
  constructor
  · rintro ⟨s, t, d, h, hne⟩
    rw [hexec] at h
    cases h
    by_contra hdisjoint
    exact hne (fieldOf_setByte_of_disjoint s.buf d hi hdisjoint)
  · exact fun hmeet => ⟨State.reset, _, _, hexec _ _, fieldOf_setByte_ones_ne (by omega) hmeet⟩

end Sys2Proof.Proofs

/-!
PROOFS: the family 30_encoding.md (the decoder and the encoder, illegal words, the assembler and the pseudo-commands).
-/
namespace Sys2Proof.Proofs

open Machine

/-! ### A word put together from its fields -/

/-- The word with the given fields (R61), put together as in `word_eq_fields`. -/
def ofFields (op : BitVec 4) (fi : BitVec 3) (z0 : BitVec 1) (bi z1 : BitVec 4) (imm : InsValue) : Word :=
  (imm.setWidth 32 <<< 16) ||| (z1.setWidth 32 <<< 12) ||| (bi.setWidth 32 <<< 8) ||| (z0.setWidth 32 <<< 7) |||
    (fi.setWidth 32 <<< 4) ||| op.setWidth 32

theorem ofFields_of_word (c : Word) : ofFields (opOf c) (fiOf c) (z0Of c) (biOf c) (z1Of c) (immOf c) = c :=
  (word_eq_fields c).symm

section Fields

variable (op : BitVec 4) (fi : BitVec 3) (z0 : BitVec 1) (bi z1 : BitVec 4) (imm : InsValue)

@[simp] theorem opOf_ofFields : opOf (ofFields op fi z0 bi z1 imm) = op :=
  (field_eq_iff _ _ _ _).mpr fun k hk => by interval_cases k <;> simp [ofFields]

@[simp] theorem fiOf_ofFields : fiOf (ofFields op fi z0 bi z1 imm) = fi :=
  (field_eq_iff _ _ _ _).mpr fun k hk => by interval_cases k <;> simp [ofFields]

@[simp] theorem z0Of_ofFields : z0Of (ofFields op fi z0 bi z1 imm) = z0 :=
  (field_eq_iff _ _ _ _).mpr fun k hk => by interval_cases k; simp [ofFields]

@[simp] theorem biOf_ofFields : biOf (ofFields op fi z0 bi z1 imm) = bi :=
  (field_eq_iff _ _ _ _).mpr fun k hk => by interval_cases k <;> simp [ofFields]

@[simp] theorem z1Of_ofFields : z1Of (ofFields op fi z0 bi z1 imm) = z1 :=
  (field_eq_iff _ _ _ _).mpr fun k hk => by interval_cases k <;> simp [ofFields]

@[simp] theorem immOf_ofFields : immOf (ofFields op fi z0 bi z1 imm) = imm :=
  (field_eq_iff _ _ _ _).mpr fun k hk => by interval_cases k <;> simp [ofFields]

/-- The datum of WRB fills the lower half of IMM (R62). -/
@[simp] theorem datumOf_ofFields_setWidth (d : Byte) : datumOf (ofFields op fi z0 bi z1 (d.setWidth 16)) = d :=
  (field_eq_iff _ _ _ _).mpr fun k hk => by interval_cases k <;> simp [ofFields]

@[simp] theorem immHighOf_ofFields_setWidth (d : Byte) :
    immHighOf (ofFields op fi z0 bi z1 (d.setWidth 16)) = 0#8 :=
  (field_eq_iff _ _ _ _).mpr fun k hk => by interval_cases k <;> simp [ofFields]

end Fields

theorem immOf_eq_datum_of_immHigh {c : Word} (h : immHighOf c = 0#8) : immOf c = (datumOf c).setWidth 16 := by
  rw [immOf_eq_append, h]
  exact (BitVec.setWidth_eq_append (by decide)).symm

/-! ### The encoder writes the opcode and the operands into their fields, and 0 into the others (R69) -/

theorem encode_nop : encode .nop = ofFields 0#4 0#3 0#1 0#4 0#4 0#16 := rfl

theorem encode_clr : encode .clr = ofFields 1#4 0#3 0#1 0#4 0#4 0#16 := rfl

theorem encode_wrb (j : BitVec 4) (d : Byte) :
    encode (.wrb j d) = ofFields 2#4 0#3 0#1 j 0#4 (d.setWidth 16) := by
  simp [encode, ofFields]

theorem encode_rdb (j : BitVec 4) : encode (.rdb j) = ofFields 3#4 0#3 0#1 j 0#4 0#16 := by
  simp [encode, ofFields]

theorem encode_ext (i : BitVec 3) : encode (.ext i) = ofFields 4#4 i 0#1 0#4 0#4 0#16 := by
  simp [encode, ofFields]

theorem encode_scl (i : BitVec 3) : encode (.scl i) = ofFields 5#4 i 0#1 0#4 0#4 0#16 := by
  simp [encode, ofFields]

theorem encode_ins (i : BitVec 3) (v : InsValue) : encode (.ins i v) = ofFields 6#4 i 0#1 0#4 0#4 v := by
  simp [encode, ofFields]

/-- Settles O1: the decoder reads each field of the word as the encoder wrote it. -/
theorem decodeOfEncodeIsIdentity : Obligations.DecodeOfEncodeIsIdentity := by
  intro i hwf
  cases i with
  | nop => rfl
  | clr => rfl
  | wrb j d =>
    have hj : byteIndexLegal j = true := hwf
    simp [encode_wrb, decode, hj]
  | rdb j =>
    have hj : byteIndexLegal j = true := hwf
    simp [encode_rdb, decode, hj]
  | ext i => simp [encode_ext, decode]
  | scl i => simp [encode_scl, decode]
  | ins i v => simp [encode_ins, decode]

/-- A word that decodes is put together from the fields that its row of R64 fixes and the operands that the decoder reads. -/
theorem encode_of_decode {c : Word} {i : Instr} (h : decode c = .ok i) : encode i = c := by
  have hword := ofFields_of_word c
  simp only [decode_eq_ok_iff, masked_eq_iff_fields, and_eq_self_of_eq_allOnes, BitVec.reduceExtractLsb',
    BitVec.and_zero, BitVec.reduceAllOnes, true_and, and_true, and_assoc] at h
  rcases h with ⟨rfl, rfl⟩ | ⟨rfl, rfl⟩ | ⟨hop, hfi, hz0, hz1, hhigh, -, rfl⟩ |
    ⟨hop, hfi, hz0, hz1, hdatum, hhigh, -, rfl⟩ | ⟨hop, hz0, hbi, hz1, hdatum, hhigh, rfl⟩ |
    ⟨hop, hz0, hbi, hz1, hdatum, hhigh, rfl⟩ | ⟨hop, hz0, hbi, hz1, rfl⟩
  · rfl
  · rfl
  · rwa [hop, hfi, hz0, hz1, immOf_eq_datum_of_immHigh hhigh, ← encode_wrb] at hword
  · rwa [hop, hfi, hz0, hz1, (immOf_eq_zero_iff c).mpr ⟨hdatum, hhigh⟩, ← encode_rdb] at hword
  · rwa [hop, hz0, hbi, hz1, (immOf_eq_zero_iff c).mpr ⟨hdatum, hhigh⟩, ← encode_ext] at hword
  · rwa [hop, hz0, hbi, hz1, (immOf_eq_zero_iff c).mpr ⟨hdatum, hhigh⟩, ← encode_scl] at hword
  · rwa [hop, hz0, hbi, hz1, ← encode_ins] at hword

/-- Settles O2: the decoder answers well-formed instructions only, and the encoder writes the word back. -/
theorem encodeOfDecodeIsIdentity : Obligations.EncodeOfDecodeIsIdentity := fun _ _ h =>
  ⟨wf_of_decode h, encode_of_decode h⟩

/-- Settles O6: the decoder and the legality check, evaluated on the words of R71. -/
theorem workedWordsDecode : Obligations.WorkedWordsDecode := by
  unfold Obligations.WorkedWordsDecode
  decide

/-! ### Ranges of bits that span several fields -/

/-- A range of bits is 0 exactly where its two parts are. -/
theorem extractLsb'_add_eq_zero_iff (c : Word) (a m n : Nat) :
    c.extractLsb' a (m + n) = 0 ↔ c.extractLsb' a m = 0 ∧ c.extractLsb' (a + m) n = 0 := by
  simp only [field_eq_iff, BitVec.ofNat_eq_ofNat, BitVec.getLsbD_zero]
  constructor
  · exact fun h => ⟨fun k hk => h k (by omega), fun k hk => by rw [Nat.add_assoc]; exact h (m + k) (by omega)⟩
  · rintro ⟨hlow, hhigh⟩ k hk
    by_cases hkm : k < m
    · exact hlow k hkm
    · have hbit := hhigh (k - m) (by omega)
      rwa [show a + m + (k - m) = a + k by omega] at hbit

theorem bits_4_4_eq_zero_iff (c : Word) : c.extractLsb' 4 4 = 0#4 ↔ fiOf c = 0#3 ∧ z0Of c = 0#1 :=
  extractLsb'_add_eq_zero_iff c 4 3 1

theorem bits_8_8_eq_zero_iff (c : Word) : c.extractLsb' 8 8 = 0#8 ↔ biOf c = 0#4 ∧ z1Of c = 0#4 :=
  extractLsb'_add_eq_zero_iff c 8 4 4

theorem bits_12_20_eq_zero_iff (c : Word) : c.extractLsb' 12 20 = 0#20 ↔ z1Of c = 0#4 ∧ immOf c = 0#16 :=
  extractLsb'_add_eq_zero_iff c 12 4 16

theorem bits_8_24_eq_zero_iff (c : Word) :
    c.extractLsb' 8 24 = 0#24 ↔ biOf c = 0#4 ∧ z1Of c = 0#4 ∧ immOf c = 0#16 := by
  rw [← bits_12_20_eq_zero_iff]
  exact extractLsb'_add_eq_zero_iff c 8 4 20

theorem bits_4_28_eq_zero_iff (c : Word) : c.extractLsb' 4 28 = 0#28 ↔
    (fiOf c = 0#3 ∧ z0Of c = 0#1) ∧ biOf c = 0#4 ∧ z1Of c = 0#4 ∧ immOf c = 0#16 := by
  rw [← bits_4_4_eq_zero_iff, ← bits_8_24_eq_zero_iff]
  exact extractLsb'_add_eq_zero_iff c 4 4 24

/-! ### The legality check and illegal words -/

/-- The reserved opcodes, and those of R63. -/
theorem opOf_cases (c : Word) : 7 ≤ (opOf c).toNat ∨ opOf c = 0#4 ∨ opOf c = 1#4 ∨ opOf c = 2#4 ∨ opOf c = 3#4 ∨
    opOf c = 4#4 ∨ opOf c = 5#4 ∨ opOf c = 6#4 := by
  generalize opOf c = op
  revert op
  decide

/-- The legality check of R66, field by field. -/
theorem legal_iff_fields (c : Word) : legal c = true ↔
    ((opOf c = 0#4 ∨ opOf c = 1#4) ∧
      (fiOf c = 0#3 ∧ z0Of c = 0#1) ∧ biOf c = 0#4 ∧ z1Of c = 0#4 ∧ immOf c = 0#16) ∨
    (opOf c = 2#4 ∧ (fiOf c = 0#3 ∧ z0Of c = 0#1) ∧ z1Of c = 0#4 ∧ immHighOf c = 0#8 ∧ (biOf c).toNat < 13) ∨
    (opOf c = 3#4 ∧ (fiOf c = 0#3 ∧ z0Of c = 0#1) ∧ (z1Of c = 0#4 ∧ immOf c = 0#16) ∧ (biOf c).toNat < 13) ∨
    ((opOf c = 4#4 ∨ opOf c = 5#4) ∧ z0Of c = 0#1 ∧ biOf c = 0#4 ∧ z1Of c = 0#4 ∧ immOf c = 0#16) ∨
    (opOf c = 6#4 ∧ z0Of c = 0#1 ∧ biOf c = 0#4 ∧ z1Of c = 0#4) := by
  simp [legal, opcodeTable, rowMatches, masked_eq_iff_fields, and_eq_self_of_eq_allOnes, immOf_eq_zero_iff,
    byteIndexLegal, Nat.lt_succ_iff, or_and_right, or_assoc, and_assoc]

/-- The three reasons of R66 for a word to be illegal: a reserved opcode, a nonzero field that the opcode does not use, a
byte index out of range. A word with an opcode of R63 fails its own row of the legality check; the other rows have another
opcode. -/
theorem illegal_iff_fields (c : Word) : legal c = false ↔
    7 ≤ (opOf c).toNat ∨
    ((opOf c = 0#4 ∨ opOf c = 1#4) ∧
      ¬ ((fiOf c = 0#3 ∧ z0Of c = 0#1) ∧ biOf c = 0#4 ∧ z1Of c = 0#4 ∧ immOf c = 0#16)) ∨
    (opOf c = 2#4 ∧ (¬ (fiOf c = 0#3 ∧ z0Of c = 0#1) ∨ ¬ z1Of c = 0#4 ∨ ¬ immHighOf c = 0#8)) ∨
    (opOf c = 3#4 ∧ (¬ (fiOf c = 0#3 ∧ z0Of c = 0#1) ∨ ¬ (z1Of c = 0#4 ∧ immOf c = 0#16))) ∨
    ((opOf c = 4#4 ∨ opOf c = 5#4) ∧ (¬ z0Of c = 0#1 ∨ ¬ (biOf c = 0#4 ∧ z1Of c = 0#4 ∧ immOf c = 0#16))) ∨
    (opOf c = 6#4 ∧ (¬ z0Of c = 0#1 ∨ ¬ (biOf c = 0#4 ∧ z1Of c = 0#4))) ∨
    ((opOf c = 2#4 ∨ opOf c = 3#4) ∧ 13 ≤ (biOf c).toNat) := by
  rw [← Bool.not_eq_true, legal_iff_fields]
  rcases opOf_cases c with hreserved | hop
  · have hne : ∀ v : BitVec 4, v.toNat < 7 → opOf c ≠ v := by
      rintro v hv rfl
      omega
    simp [hreserved, hne]
  · rcases hop with hop | hop | hop | hop | hop | hop | hop <;> simp [hop, -not_and, not_and_or, or_assoc]

theorem performWord_of_illegal {c : Word} (h : legal c = false) (s : State) :
    performWord c s = .next s.raiseIllegal := by
  obtain ⟨t, ht, -⟩ := performWord_next c s
  rcases performWord_cases ht with ⟨i, hdecode, -⟩ | ⟨-, rfl⟩
  · simp [(legal_iff_exists_decode c).mpr ⟨i, hdecode⟩] at h
  · exact ht

/-- After the first reset, a presented illegal word sets ILL and changes no other register (R121 of 60_exceptions.md). -/
theorem step_of_illegal {s : State} {k : Nat} {c : Word} {es : List Edge} (hillegal : legal c = false)
    (hphase : s.phase = .running k) (hpending : s.pending = Edge.command c :: es) :
    step s = .next { s with ill := true, phase := .running (k + 1), pending := es } := by
  rw [step_of_pending_command hphase hpending, performWord_of_illegal hillegal]
  rfl

/-- Settles O3: `legal` is the rule's formula and accepts what decodes, and the reasons are ranges of bits that come down to
fields. -/
theorem legalityCheckIsTheDecoder : Obligations.LegalityCheckIsTheDecoder := by
  refine fun c => ⟨?_, legal_iff_exists_decode c, ?_, fun hillegal _ _ _ => step_of_illegal hillegal⟩
  · rw [show c.extractLsb' 8 4 = biOf c from rfl]
    simp [legal, opcodeTable, rowMatches, byteIndexLegal]
  · simp only [ne_eq, BitVec.ofNat_eq_ofNat, bits_4_4_eq_zero_iff, bits_8_8_eq_zero_iff, bits_12_20_eq_zero_iff,
      bits_8_24_eq_zero_iff, bits_4_28_eq_zero_iff]
    exact illegal_iff_fields c

/-- Settles O5: a reserved opcode is the first reason for a word to be illegal. -/
theorem reservedOpcodesAreIllegal : Obligations.ReservedOpcodesAreIllegal := by
  intro c hop
  have hillegal : legal c = false := (illegal_iff_fields c).mpr (.inl hop)
  exact ⟨hillegal, fun _ _ _ => step_of_illegal hillegal⟩

/-- A word that fits a row's pattern has the row's opcode: every mask of R64 covers OP. -/
theorem opOf_of_rowMatches {r : OpcodeRow} (hr : r ∈ opcodeTable) {c : Word} (h : rowMatches r c = true) :
    opOf c = opOf r.value := by
  have hmask : ∀ r ∈ opcodeTable, opOf r.mask = BitVec.allOnes 4 := by decide
  have hand : c &&& r.mask = r.value := of_decide_eq_true h
  calc opOf c = opOf c &&& opOf r.mask := (and_eq_self_of_eq_allOnes (hmask r hr)).symm
    _ = opOf r.value := by rw [← hand, opOf, opOf, opOf, BitVec.extractLsb'_and]

/-- Settles O4: the rows have different opcodes. -/
theorem noWordMatchesTwoRows : Obligations.NoWordMatchesTwoRows := by
  have hopcodes : opcodeTable.Pairwise fun r t => opOf r.value ≠ opOf t.value := by decide
  refine hopcodes.imp_of_mem fun hr ht hne c ⟨hmatch, hmatch'⟩ => hne ?_
  rw [← opOf_of_rowMatches hr hmatch, opOf_of_rowMatches ht hmatch']

/-! ### The cmd port -/

/-- Settles O11: a reset edge, an edge before the first reset and an idle edge do not look at cmd. -/
theorem cmdPortIgnoredUnlessPerformed : Obligations.CmdPortIgnoredUnlessPerformed := by
  intro s r v c c' es hnot
  rw [step_of_pending_cons rfl, step_of_pending_cons rfl]
  change performEdge _ (s.withPending es) = performEdge _ (s.withPending es)
  cases r with
  | true => rw [performEdge_rst _ rfl, performEdge_rst _ rfl]
  | false =>
    obtain rfl : v = false := by simpa using hnot
    cases hphase : (s.withPending es).phase with
    | powerUp n => rw [performEdge_powerUp rfl hphase, performEdge_powerUp rfl hphase]
    | running k => rw [performEdge_idle rfl rfl hphase, performEdge_idle rfl rfl hphase]

/-! ### The assembler -/

theorem toNat_ofNat_byteIndex {a : Nat} (ha : a ≤ 12) : (BitVec.ofNat 4 a).toNat = a := by
  rw [BitVec.toNat_ofNat, Nat.mod_eq_of_lt (by omega)]

theorem byteIndexLegal_ofNat {a : Nat} (ha : a ≤ 12) : byteIndexLegal (BitVec.ofNat 4 a) = true := by
  rw [byteIndexLegal, toNat_ofNat_byteIndex ha]
  exact decide_eq_true ha

/-- The table of R69 keeps a byte index in its range. -/
theorem wf_of_assembleCommand {name : List Char} {ops : List Nat} {i : Instr}
    (h : assembleCommand name ops = some i) : i.wf = true := by
  unfold assembleCommand at h
  split at h
  · split_ifs at h <;> cases h <;> rfl
  · split_ifs at h with hrdb <;> cases h
    · exact byteIndexLegal_ofNat hrdb.2
    · rfl
    · rfl
  · split_ifs at h with hwrb <;> cases h
    · exact byteIndexLegal_ofNat hwrb.2.1
    · rfl
  · cases h

theorem exists_assembleCommand_of_assembleLine {line : List Char} {i : Instr} (h : assembleLine line = .command i) :
    ∃ name ops, assembleCommand name ops = some i := by
  simp only [assembleLine] at h
  split at h
  · cases h
  · split at h
    · cases h
    · split at h
      · cases h
      next hcommand =>
        cases h
        exact ⟨_, _, hcommand⟩

/-- Settles O7: a line is a command only through the table of R69, and a well-formed instruction's word decodes. -/
theorem assemblerNeverEncodesAnIllegalWord : Obligations.AssemblerNeverEncodesAnIllegalWord := by
  refine ⟨fun line i h => ?_, by decide, by decide, by decide, by decide⟩
  obtain ⟨name, ops, hcommand⟩ := exists_assembleCommand_of_assembleLine h
  have hwf := wf_of_assembleCommand hcommand
  exact ⟨hwf, (legal_iff_exists_decode _).mpr ⟨i, decodeOfEncodeIsIdentity i hwf⟩⟩

/-! ### A sequence of commands, one command at a time -/

section Present

variable {i : Instr} {s t : State} {k : Nat} (hwf : i.wf = true) (hphase : s.phase = .running k)
  (hexec : exec i (s.withPhase (.running (k + 1))) = .next t)
include hwf hphase hexec

theorem performEdge_encode (es : List Edge) :
    performEdge (Edge.command (encode i)) (s.withPending es) = .next (t.withPending es) := by
  rw [performEdge_command rfl rfl (s := s.withPending es) hphase, Edge.command,
    performWord_of_decode (decodeOfEncodeIsIdentity i hwf)]
  exact exec_withPending hexec es

theorem runInputs_presentAll_cons (is : List Instr) :
    runInputs (presentAll (i :: is)) s = runInputs (presentAll is) t :=
  (runInputs_cons _ (presentAll is) s (performEdge_encode hwf hphase hexec _)).trans rfl

theorem observeCommands_cons (is : List Instr) :
    observeCommands (i :: is) s = t.outputs :: observeCommands is t :=
  observe_cons hphase (performEdge_encode hwf hphase hexec _)

end Present

/-! ### LOADBUF -/

section ByteIndexOfFin

variable (j : Fin 13) (d : Byte) (s : State)

theorem wf_wrb_ofNat : (Instr.wrb (BitVec.ofNat 4 j.val) d).wf = true := byteIndexLegal_ofNat (by omega)

theorem wf_rdb_ofNat : (Instr.rdb (BitVec.ofNat 4 j.val)).wf = true := byteIndexLegal_ofNat (by omega)

theorem exec_wrb_ofNat :
    exec (.wrb (BitVec.ofNat 4 j.val) d) s = .next (s.writeBuf (setByte s.buf j.val d)) := by
  rw [exec_wrb_of_legal (wf_rdb_ofNat j), toNat_ofNat_byteIndex (by omega)]

theorem exec_rdb_ofNat :
    exec (.rdb (BitVec.ofNat 4 j.val)) s = .next (s.writeRes ((byteOf s.buf j.val).setWidth 64)) := by
  rw [exec_rdb_of_legal (wf_rdb_ofNat j), toNat_ofNat_byteIndex (by omega)]

end ByteIndexOfFin

/-- The buffer b with the bytes at the indexes js stored, in this order. -/
def storeBytes (bytes : Vector Byte 13) (js : List (Fin 13)) (b : Buffer) : Buffer :=
  js.foldl (fun b j => setByte b j.val (bytes.get j)) b

theorem byteOf_storeBytes (bytes : Vector Byte 13) (js : List (Fin 13)) (b : Buffer) (j : Fin 13) :
    byteOf (storeBytes bytes js b) j.val = if j ∈ js then bytes.get j else byteOf b j.val := by
  induction js generalizing b with
  | nil => rfl
  | cons m js ih =>
    rw [storeBytes, List.foldl_cons, ← storeBytes, ih]
    by_cases hjm : j = m
    · simp [hjm, byteOf_setByte_same]
    · simp [hjm, byteOf_setByte_other _ _ j.isLt (Fin.val_ne_of_ne hjm)]

/-- WRB commands store their bytes, each advances the command index, and no other register changes (R82 of 40_buffer.md). -/
theorem runInputs_wrb (bytes : Vector Byte 13) (js : List (Fin 13)) {s : State} {k : Nat}
    (hphase : s.phase = .running k) :
    runInputs (presentAll (js.map fun j => .wrb (BitVec.ofNat 4 j.val) (bytes.get j))) s =
      .next { s with buf := storeBytes bytes js s.buf, phase := .running (k + js.length), pending := [] } := by
  induction js generalizing s k with
  | nil => rw [List.length_nil, Nat.add_zero, ← hphase]; rfl
  | cons j js ih =>
    rw [List.map_cons, runInputs_presentAll_cons (wf_wrb_ofNat j _) hphase (exec_wrb_ofNat j _ _), ih rfl,
      List.length_cons, Nat.add_assoc, Nat.add_comm 1]
    rfl

/-- Settles O37: LOADBUF stores a byte at each of the thirteen indexes. -/
theorem loadBufLoadsEveryByte : Obligations.LoadBufLoadsEveryByte := fun bytes _ _ hphase =>
  ⟨_, runInputs_wrb bytes (List.finRange 13) hphase, fun j => by rw [byteOf_storeBytes, if_pos (List.mem_finRange j)]⟩

/-! ### DUMP, DECODE and SCALEALL -/

/-- Commands that put a value read from BUF in RES and change nothing else show their values on res_q, one after the other
(R143 of 70_reset_and_hazards.md). -/
theorem resQ_observeCommands_map {α : Type} {cmd : α → Instr} (value : α → Buffer → Result)
    (hwf : ∀ a, (cmd a).wf = true) (hexec : ∀ a s, exec (cmd a) s = .next (s.writeRes (value a s.buf)))
    (as : List α) {s : State} {k : Nat} (hphase : s.phase = .running k) :
    (observeCommands (as.map cmd) s).map (·.resQ) = as.map fun a => value a s.buf := by
  induction as generalizing s k with
  | nil => rfl
  | cons a as ih =>
    rw [List.map_cons, observeCommands_cons (hwf a) hphase (hexec a _), List.map_cons, ih rfl, List.map_cons]
    rfl

theorem toNat_ofNat_fieldIndex (i : Fin 8) : (BitVec.ofNat 3 i.val).toNat = i.val := by
  rw [BitVec.toNat_ofNat, Nat.mod_eq_of_lt i.isLt]

theorem exec_ext_ofNat (i : Fin 8) (s : State) :
    exec (.ext (BitVec.ofNat 3 i.val)) s = .next (s.writeRes ((fieldOf s.buf i.val).setWidth 64)) := by
  rw [exec, execExt, toNat_ofNat_fieldIndex]

theorem exec_scl_ofNat (i : Fin 8) (s : State) :
    exec (.scl (BitVec.ofNat 3 i.val)) s = .next (s.writeRes (physicalValue (fieldOf s.buf i.val))) := by
  rw [exec, execScl, toNat_ofNat_fieldIndex]

/-- Settles O38: each RDB of DUMP shows its byte. -/
theorem dumpReadsEveryByte : Obligations.DumpReadsEveryByte := by
  intro s k hphase
  rw [← List.map_coe_finRange_eq_range, List.map_map]
  exact resQ_observeCommands_map (fun (j : Fin 13) b => (byteOf b j.val).setWidth 64) wf_rdb_ofNat exec_rdb_ofNat _
    hphase

/-- Settles O40: each EXT of DECODE shows its field, and each SCL of SCALEALL its field's physical value. -/
theorem decodeReadsEveryField : Obligations.DecodeReadsEveryField := by
  intro s k hphase
  rw [← List.map_coe_finRange_eq_range, List.map_map, List.map_map]
  exact ⟨resQ_observeCommands_map (fun (i : Fin 8) b => (fieldOf b i.val).setWidth 64) (fun _ => rfl) exec_ext_ofNat _
      hphase,
    resQ_observeCommands_map (fun (i : Fin 8) b => physicalValue (fieldOf b i.val)) (fun _ => rfl) exec_scl_ofNat _
      hphase⟩

end Sys2Proof.Proofs

/-!
PROOFS: the family 40_buffer.md (NOP, CLR, WRB and RDB).
-/
namespace Sys2Proof.Proofs

open Machine

/-! ### Illegal words with the opcode of a buffer command: the reasons of R66, which O3 gives as ranges of bits -/

section Illegal

variable {c : Word}

theorem illegal_of_opcode_nop_or_clr (hop : opOf c = 0#4 ∨ opOf c = 1#4) (hunused : c.extractLsb' 4 28 ≠ 0) :
    legal c = false := by
  obtain ⟨-, -, hreasons, -⟩ := legalityCheckIsTheDecoder c
  exact hreasons.mpr (.inr (.inl ⟨hop, hunused⟩))

theorem illegal_of_byteIndex (hop : opOf c = 2#4 ∨ opOf c = 3#4) (hindex : 13 ≤ (biOf c).toNat) : legal c = false := by
  obtain ⟨-, -, hreasons, -⟩ := legalityCheckIsTheDecoder c
  exact hreasons.mpr (.inr (.inr (.inr (.inr (.inr (.inr ⟨hop, hindex⟩))))))

theorem illegal_of_opcode_wrb (hop : opOf c = 2#4)
    (hreason : 13 ≤ (biOf c).toNat ∨ c.extractLsb' 4 4 ≠ 0 ∨ c.extractLsb' 12 4 ≠ 0 ∨ c.extractLsb' 24 8 ≠ 0) :
    legal c = false := by
  obtain ⟨-, -, hreasons, -⟩ := legalityCheckIsTheDecoder c
  exact hreason.elim (illegal_of_byteIndex (.inl hop)) fun hunused =>
    hreasons.mpr (.inr (.inr (.inl ⟨hop, hunused⟩)))

theorem illegal_of_opcode_rdb (hop : opOf c = 3#4)
    (hreason : 13 ≤ (biOf c).toNat ∨ c.extractLsb' 4 4 ≠ 0 ∨ c.extractLsb' 12 20 ≠ 0) : legal c = false := by
  obtain ⟨-, -, hreasons, -⟩ := legalityCheckIsTheDecoder c
  exact hreason.elim (illegal_of_byteIndex (.inr hop)) fun hunused =>
    hreasons.mpr (.inr (.inr (.inr (.inl ⟨hop, hunused⟩))))

end Illegal

/-- Settles O33: a legal WRB is a byte write, and the listed words are illegal. -/
theorem wrbWritesOneByte : Obligations.WrbWritesOneByte := by
  refine ⟨fun s j d hj => ?_, fun _ _ _ _ hphase hpending hop hreason =>
    step_of_illegal (illegal_of_opcode_wrb hop hreason) hphase hpending⟩
  exact ⟨_, exec_wrb_of_legal (decide_eq_true hj) d s, rfl, byteOf_setByte_same s.buf d (by omega),
    fun _ hm hne => byteOf_setByte_other s.buf d hm hne⟩

/-- Settles O34: a legal RDB writes the byte, a quotient of BUF, to RES, and the listed words are illegal. -/
theorem rdbReadsOneByte : Obligations.RdbReadsOneByte := by
  refine ⟨fun s j hj => ?_, fun _ _ _ _ hphase hpending hop hreason =>
    step_of_illegal (illegal_of_opcode_rdb hop hreason) hphase hpending⟩
  refine ⟨_, exec_rdb_of_legal (decide_eq_true hj) s, ?_⟩
  rw [BitVec.toNat_setWidth_of_le (by decide), toNat_byteOf]

/-! ### NOP and CLR, each the command of one word -/

theorem exec_nop (s : State) : exec .nop s = .next s := rfl

theorem exec_clr (s : State) : exec .clr s = .next (s.writeBuf 0) := rfl

theorem decode_eq_nop_iff (c : Word) : decode c = .ok .nop ↔ c = 0x00000000#32 := by
  simp [decode_eq_ok_iff]

theorem decode_eq_clr_iff (c : Word) : decode c = .ok .clr ↔ c = 0x00000001#32 := by
  simp [decode_eq_ok_iff]

/-- Settles O31: the word 0 is performed as NOP, and the other words with its opcode are illegal. -/
theorem nopDoesNothing : Obligations.NopDoesNothing := by
  refine ⟨exec_nop, fun s k es hphase hpending => ?_, decode_eq_nop_iff, fun _ _ _ _ hphase hpending hop hunused =>
    step_of_illegal (illegal_of_opcode_nop_or_clr (.inl hop) hunused) hphase hpending⟩
  rw [step_of_pending_command hphase hpending, performWord_of_decode ((decode_eq_nop_iff _).mpr rfl), exec_nop]
  rfl

/-- Settles O32: CLR writes 0 to BUF, and the other words with its opcode are illegal. -/
theorem clrZeroesTheBuffer : Obligations.ClrZeroesTheBuffer :=
  ⟨exec_clr, decode_eq_clr_iff, fun _ _ _ _ hphase hpending hop hunused =>
    step_of_illegal (illegal_of_opcode_nop_or_clr (.inr hop) hunused) hphase hpending⟩

/-- Settles O35: the byte index fails the check that exec makes first in WRB and RDB. -/
theorem byteIndexOutOfRangeRaisesIllegal : Obligations.ByteIndexOutOfRangeRaisesIllegal := by
  intro s j d hj
  have hindex : byteIndexLegal j = false := decide_eq_false (by omega)
  exact ⟨exec_wrb_of_illegal hindex d s, exec_rdb_of_illegal hindex s⟩

end Sys2Proof.Proofs

/-!
PROOFS: the family 41_extract.md (EXT and the two forms of a field read).
-/
namespace Sys2Proof.Proofs

open Machine

/-! ### The byte-composed form of a field read -/

/-- The three bytes from byte j on, put together, are the 24 bits of BUF from bit 8j on: bit k comes from byte j + k / 8. -/
theorem threeBytes_eq_extractLsb' (b : Buffer) (j : Nat) :
    (byteOf b j).setWidth 24 ||| ((byteOf b (j + 1)).setWidth 24 <<< 8) ||| ((byteOf b (j + 2)).setWidth 24 <<< 16) =
      b.extractLsb' (8 * j) 24 := by
  apply BitVec.eq_of_getLsbD_eq
  intro k hk
  simp only [BitVec.getLsbD_or, BitVec.getLsbD_shiftLeft, BitVec.getLsbD_setWidth, getLsbD_byteOf,
    BitVec.getLsbD_extractLsb']
  rcases (by omega : k < 8 ∨ (8 ≤ k ∧ k < 16) ∨ 16 ≤ k) with hlow | ⟨hlow, hhigh⟩ | hhigh
  · simp [hk, hlow, show k < 16 by omega]
  · simp [hk, hhigh, show ¬ k < 8 by omega, show k - 8 < 8 by omega, show k - 8 < 24 by omega,
      show 8 * (j + 1) + (k - 8) = 8 * j + k by omega]
  · simp [hk, show ¬ k < 8 by omega, show ¬ k < 16 by omega, show ¬ k - 8 < 8 by omega, show k - 16 < 8 by omega,
      show k - 16 < 24 by omega, show 8 * (j + 2) + (k - 16) = 8 * j + k by omega]

/-- The two forms agree beyond field 7 too, where both read 0 above bit 103: with n = 13i, bit k of the field is bit
8 (n / 8) + (n mod 8 + k) of BUF, and n mod 8 + k stays within the three bytes. -/
theorem fieldByBytes_eq_fieldOf (b : Buffer) (i : Nat) : fieldByBytes b i = fieldOf b i := by
  apply BitVec.eq_of_getLsbD_eq
  intro k hk
  have hwindow : 13 * i % 8 + k < 24 := by omega
  have hbit : 8 * (13 * i / 8) + (13 * i % 8 + k) = 13 * i + k := by omega
  rw [fieldByBytes, threeBytes_eq_extractLsb', getLsbD_fieldOf, BitVec.getLsbD_setWidth, BitVec.getLsbD_ushiftRight,
    BitVec.getLsbD_extractLsb', decide_eq_true hwindow, Bool.true_and, hbit]

/-- Settles O29: the three bytes hold every bit of the field. -/
theorem byteComposedFieldIsTheField : Obligations.ByteComposedFieldIsTheField := fun b i _ =>
  fieldByBytes_eq_fieldOf b i

/-! ### EXT -/

theorem exec_ext (i : BitVec 3) (s : State) :
    exec (.ext i) s = .next (s.writeRes ((fieldOf s.buf i.toNat).setWidth 64)) := rfl

/-- EXT and SCL have the same unused fields (R66, which O3 gives as ranges of bits). -/
theorem illegal_of_opcode_ext_or_scl {c : Word} (hop : opOf c = 4#4 ∨ opOf c = 5#4)
    (hunused : c.extractLsb' 7 1 ≠ 0 ∨ c.extractLsb' 8 24 ≠ 0) : legal c = false := by
  obtain ⟨-, -, hreasons, -⟩ := legalityCheckIsTheDecoder c
  exact hreasons.mpr (.inr (.inr (.inr (.inr (.inl ⟨hop, hunused⟩)))))

/-- Settles O39: EXT writes the field, a quotient of BUF, to RES, and the listed words are illegal. -/
theorem extExtractsOneField : Obligations.ExtExtractsOneField := by
  refine ⟨fun s i => ⟨_, exec_ext i s, ?_⟩, fun _ _ _ _ hphase hpending hop hunused =>
    step_of_illegal (illegal_of_opcode_ext_or_scl (.inl hop) hunused) hphase hpending⟩
  rw [BitVec.toNat_setWidth_of_le (by decide), toNat_fieldOf]

end Sys2Proof.Proofs

/-!
PROOFS: the family 42_scale.md (SCL and its two roundings).
-/
namespace Sys2Proof.Proofs

open Machine

/-! ### The rounding of a rational -/

/-- f64 of a rational number, which the model writes as a fraction. -/
def f64Rat (q : ℚ) : Result := f64 q.num q.den

theorem f64_eq_f64Rat (n : Int) {d : Nat} (hd : 0 < d) : f64 n d = f64Rat ((n : ℚ) / d) :=
  f64_congr hd (Rat.den_pos _) (Rat.num_div_den _).symm

theorem f64Mul_eq_f64Rat (a b : Result) : f64Mul a b = f64Rat (valRat a * valRat b) :=
  f64Mul_eq_f64 (Rat.den_pos _) (Rat.num_div_den _)

theorem f64Sub_eq_f64Rat (a b : Result) : f64Sub a b = f64Rat (valRat a - valRat b) :=
  f64Sub_eq_f64 (Rat.den_pos _) (Rat.num_div_den _)

theorem abs_eq_natAbs_div_den (q : ℚ) : |q| = (q.num.natAbs : ℚ) / q.den := by
  rw [Rat.abs_def, Rat.divInt_eq_div, Int.cast_natCast, Int.cast_natCast]

/-- Magnitudes up to 2^53 are far within the finite range of R10 (k stays a variable: 2^971 is not to be evaluated). -/
theorem le_of_le_two_pow_53 {a d k : Nat} (h : a ≤ 2 ^ 53 * d) (hk : k ≠ 0) : a ≤ (2 ^ 53 - 1) * 2 ^ k * d :=
  calc a ≤ 2 ^ 53 * d := h
    _ ≤ (2 ^ 53 - 1) * 2 * d := Nat.mul_le_mul_right _ (by norm_num)
    _ ≤ (2 ^ 53 - 1) * 2 ^ k * d := Nat.mul_le_mul_right _ (Nat.mul_le_mul_left _ (Nat.le_self_pow hk 2))

theorem natAbs_num_le {q : ℚ} (hq : |q| ≤ 2 ^ 53) : q.num.natAbs ≤ 2 ^ 53 * q.den := by
  rw [abs_eq_natAbs_div_den, div_le_iff₀ (by exact_mod_cast q.den_pos)] at hq
  exact_mod_cast hq

@[simp] theorem f64Rat_zero : f64Rat 0 = 0#64 := rfl

theorem exponentField_f64Rat_lt {q : ℚ} (hq : |q| ≤ 2 ^ 53) : exponentField (f64Rat q) < 2047 := by
  obtain ⟨hfin, -⟩ := f64RoundsToNearestTiesToEven q.num q.den q.den_pos
    (le_of_le_two_pow_53 (natAbs_num_le hq) (by norm_num))
  exact hfin

section LastPlace

variable {a d : Nat} (ha : 0 < a) (hd : 0 < d)
include ha hd

theorem lastPlace_eq_log : lastPlace a d = max (Int.log 2 ((a : ℚ) / d) - 52) (-1074) := by
  rw [lastPlace, floorLog2_eq_log ha hd]

theorem lastPlace_le_of_lt {k : Int} (hk : (a : ℚ) / d < 2 ^ k) (hlow : -1021 ≤ k) : lastPlace a d ≤ k - 53 := by
  have hq : (0 : ℚ) < (a : ℚ) / d := div_pos (by exact_mod_cast ha) (by exact_mod_cast hd)
  have hlog : Int.log 2 ((a : ℚ) / d) < k := (Int.lt_zpow_iff_log_lt (by norm_num) hq).mp (by exact_mod_cast hk)
  rw [lastPlace_eq_log ha hd]
  omega

theorem le_lastPlace_of_le {k : Int} (hk : 2 ^ k ≤ (a : ℚ) / d) : k - 52 ≤ lastPlace a d := by
  have hq : (0 : ℚ) < (a : ℚ) / d := div_pos (by exact_mod_cast ha) (by exact_mod_cast hd)
  have hlog : k ≤ Int.log 2 ((a : ℚ) / d) := (Int.zpow_le_iff_le_log (by norm_num) hq).mp (by exact_mod_cast hk)
  rw [lastPlace_eq_log ha hd]
  omega

end LastPlace

section Rounding

variable {q : ℚ} (hzero : q ≠ 0)
include hzero

theorem natAbs_num_pos : 0 < q.num.natAbs := Int.natAbs_pos.mpr (Rat.num_ne_zero.mpr hzero)

theorem lastPlace_le_of_abs_lt {k : Int} (hk : |q| < 2 ^ k) (hlow : -1021 ≤ k) :
    lastPlace q.num.natAbs q.den ≤ k - 53 :=
  lastPlace_le_of_lt (natAbs_num_pos hzero) q.den_pos (by rwa [← abs_eq_natAbs_div_den]) hlow

/-- f64Rat's value: the sign, and the magnitude rounded. -/
theorem valRat_f64Rat (hq : |q| ≤ 2 ^ 53) : valRat (f64Rat q) = q.num.sign * roundedValue q.num.natAbs q.den := by
  obtain ⟨-, -, hval, -⟩ := f64_finite (Rat.num_ne_zero.mpr hzero) q.den_pos
    (le_of_le_two_pow_53 (natAbs_num_le hq) (by norm_num))
  exact hval

theorem abs_valRat_f64Rat_sub (hq : |q| ≤ 2 ^ 53) :
    |valRat (f64Rat q) - q| = |roundedValue q.num.natAbs q.den - (|q|)| := by
  rw [valRat_f64Rat hzero hq, abs_eq_natAbs_div_den q, ← abs_sign_mul_sub (Rat.num_ne_zero.mpr hzero), Rat.num_div_den]

end Rounding

/-- One rounding moves a number below 2^k by at most half a unit in the last place there. -/
theorem abs_valRat_f64Rat_sub_le {q : ℚ} {k : Int} (hk : |q| < 2 ^ k) (hlow : -1021 ≤ k) (hq : |q| ≤ 2 ^ 53) :
    |valRat (f64Rat q) - q| ≤ 2 ^ (k - 54) := by
  by_cases hzero : q = 0
  · simp only [hzero, f64Rat_zero, valRat_zero, sub_zero, abs_zero]
    positivity
  · obtain ⟨hhalf, -⟩ := significand_spec q.num.natAbs q.den q.den_pos (lastPlace q.num.natAbs q.den)
    calc |valRat (f64Rat q) - q| = _ := abs_valRat_f64Rat_sub hzero hq
      _ ≤ 1 / 2 * 2 ^ lastPlace q.num.natAbs q.den := by
        rw [roundedValue, abs_mul_zpow_sub, abs_eq_natAbs_div_den q]
        exact mul_le_mul_of_nonneg_right hhalf (by positivity)
      _ ≤ 1 / 2 * 2 ^ (k - 53) := by
        gcongr
        · norm_num
        · exact lastPlace_le_of_abs_lt hzero hk hlow
      _ = 2 ^ (k - 54) := by
        rw [show k - 53 = k - 54 + 1 by ring, zpow_add_one₀ (by norm_num)]
        ring

/-- The multiples of 2^e. -/
def MultipleOf (e : Int) (x : ℚ) : Prop := ∃ j : Int, x = j * 2 ^ e

theorem MultipleOf.sub {e : Int} {x y : ℚ} (hx : MultipleOf e x) (hy : MultipleOf e y) : MultipleOf e (x - y) := by
  obtain ⟨i, rfl⟩ := hx
  obtain ⟨j, rfl⟩ := hy
  exact ⟨i - j, by push_cast; ring⟩

theorem MultipleOf.of_le {e e' : Int} (h : e' ≤ e) {x : ℚ} (hx : MultipleOf e x) : MultipleOf e' x := by
  obtain ⟨j, rfl⟩ := hx
  refine ⟨j * 2 ^ (e - e').toNat, ?_⟩
  have hsplit : (2 : ℚ) ^ e = 2 ^ (e - e').toNat * 2 ^ e' := by
    rw [← zpow_natCast, ← zpow_add₀ (by norm_num)]
    congr 1
    omega
  rw [hsplit]
  push_cast
  ring

/-- A number of at least 2^k is rounded to a multiple of the unit in the last place there. -/
theorem multipleOf_valRat_f64Rat {q : ℚ} {k : Int} (hk : 2 ^ k ≤ |q|) (hq : |q| ≤ 2 ^ 53) :
    MultipleOf (k - 52) (valRat (f64Rat q)) := by
  have hzero : q ≠ 0 := abs_pos.mp (lt_of_lt_of_le (by positivity) hk)
  refine MultipleOf.of_le (le_lastPlace_of_le (natAbs_num_pos hzero) q.den_pos (by rwa [← abs_eq_natAbs_div_den]))
    ⟨q.num.sign * significand q.num.natAbs q.den (lastPlace q.num.natAbs q.den), ?_⟩
  rw [valRat_f64Rat hzero hq, roundedValue]
  push_cast
  ring

/-- A multiple of 2^e of 53 bits is not rounded at all. -/
theorem valRat_f64Rat_of_multipleOf {q : ℚ} {e : Int} (he : MultipleOf e q) (hlow : -1074 ≤ e) (hk : |q| < 2 ^ (e + 53))
    (hq : |q| ≤ 2 ^ 53) : valRat (f64Rat q) = q := by
  by_cases hzero : q = 0
  · simp [hzero, valRat_zero]
  · have hplace : lastPlace q.num.natAbs q.den ≤ e := by
      have := lastPlace_le_of_abs_lt hzero hk (by omega)
      omega
    obtain ⟨j, hj⟩ := he.of_le hplace
    have hgrid : OnGrid (lastPlace q.num.natAbs q.den) |q| := by
      refine .inl ⟨|j|, ?_⟩
      rw [Int.cast_abs, ← abs_of_pos (a := (2 : ℚ) ^ lastPlace q.num.natAbs q.den) (by positivity), ← abs_mul, ← hj]
    obtain ⟨hnear, -⟩ := roundedValue_nearest (natAbs_num_pos hzero) q.den_pos hgrid
    rw [← abs_eq_natAbs_div_den, ← abs_valRat_f64Rat_sub hzero hq, sub_self, abs_zero] at hnear
    exact sub_eq_zero.mp (abs_nonpos_iff.mp hnear)

/-- An encoding of at least 2^-1022 in magnitude is not a zero or subnormal. -/
theorem one_le_exponentField {x : Result} (hx : 2 ^ (-1022 : Int) ≤ |valRat x|) : 1 ≤ exponentField x := by
  by_contra! hsub
  have hfield : exponentField x = 0 := by omega
  have hfraction : significandOf x < 2 ^ 52 := by
    rw [significandOf, if_pos hfield]
    exact Nat.mod_lt _ (by norm_num)
  have hlt : (significandOf x : ℚ) < 2 ^ 52 := by exact_mod_cast hfraction
  have habs : |valRat x| = significandOf x * 2 ^ (-1074 : Int) := by
    rw [valRat_eq, hfield, abs_mul, abs_mul]
    split <;> simp
  have hsplit : (2 : ℚ) ^ (-1022 : Int) = 2 ^ 52 * 2 ^ (-1074 : Int) := by
    rw [← zpow_natCast, ← zpow_add₀ (by norm_num)]
    norm_num
  rw [habs, hsplit] at hx
  exact absurd (le_of_mul_le_mul_right hx (by positivity)) (not_le.mpr hlt)

/-! ### The constants of the scaler -/

theorem valRat_of_fraction {x : Result} {n : Int} {d : Nat} (hn : valNum x = n) (hd : valDen x = d) : valRat x = n / d := by
  rw [valRat, hn, hd]

theorem valRat_scaleConstant : valRat Config.scaleConstant = 3602879701896397 / 2 ^ 56 := by
  rw [valRat_of_fraction (n := 7205759403792794) (d := 144115188075855872) (by decide) (by decide)]
  norm_num

theorem valRat_offsetConstant : valRat Config.offsetConstant = 20 := by
  rw [valRat_of_fraction (n := 5629499534213120) (d := 281474976710656) (by decide) (by decide)]
  norm_num

/-- Subtraction is defined on the numerators, and those of 20.0 and -20.0 are opposite. -/
theorem f64Sub_offsetConstant (p : Result) : f64Sub p Config.offsetConstant =
    f64 (valNum p * (valDen 0xC034000000000000#64 : Int) + valNum 0xC034000000000000#64 * (valDen p : Int))
      (valDen p * valDen 0xC034000000000000#64) := by
  rw [f64Sub, show valDen Config.offsetConstant = valDen 0xC034000000000000#64 by decide,
    show valNum Config.offsetConstant = -valNum 0xC034000000000000#64 by decide, neg_mul, sub_neg_eq_add]

/-- Settles O43: the patterns are evaluated, and the values follow from their numerators and denominators. -/
theorem scalerConstants : Obligations.ScalerConstants := by
  refine ⟨by decide, rfl, valRat_scaleConstant, ?_, by decide, rfl, valRat_offsetConstant, f64Sub_offsetConstant⟩
  rw [valRat_scaleConstant]
  norm_num

/-! ### The two roundings of SCL (R100) -/

/-- The product before it is rounded: C_SCALE is 1/20 + 1/(5 * 2^56) (R101). -/
def exactProduct (r : RawField) : ℚ := r.toNat * (1 / 20 + 1 / (5 * 2 ^ 56))

/-- The value of the product, after the first rounding. -/
def roundedProduct (r : RawField) : ℚ := valRat (f64Rat (exactProduct r))

theorem valRat_f64_natCast {r : Nat} (hr : r < 2 ^ 53) : valRat (f64 r 1) = r := by
  have hrq : (r : ℚ) < 2 ^ 53 := by exact_mod_cast hr
  have habs : |(r : ℚ)| < 2 ^ 53 := by rwa [abs_of_nonneg (by positivity)]
  rw [f64_eq_f64Rat r Nat.one_pos, Int.cast_natCast, Nat.cast_one, div_one]
  exact valRat_f64Rat_of_multipleOf (e := 0) ⟨r, by simp⟩ (by norm_num) (by exact_mod_cast habs) habs.le

/-- SCL rounds the product, subtracts 20 and rounds the difference. -/
theorem physicalValue_eq_f64Rat (r : RawField) : physicalValue r = f64Rat (roundedProduct r - 20) := by
  have hproduct : (r.toNat : ℚ) * valRat Config.scaleConstant = exactProduct r := by
    rw [valRat_scaleConstant, exactProduct]
    norm_num
  rw [physicalValue, f64Sub_eq_f64Rat, f64Mul_eq_f64Rat, valRat_f64_natCast (by omega), hproduct, valRat_offsetConstant,
    roundedProduct]

section SclRoundings

variable (r : RawField)

theorem exactProduct_nonneg : 0 ≤ exactProduct r := by
  unfold exactProduct
  positivity

theorem exactProduct_le : exactProduct r ≤ 410 := by
  have hr : (r.toNat : ℚ) ≤ 8191 := by exact_mod_cast (by omega : r.toNat ≤ 8191)
  unfold exactProduct
  linarith

/-- The excess of C_SCALE over 1/20 does not lift a product over that of the next field with 1/20. -/
theorem exactProduct_lt {r : RawField} {n : Nat} (hr : r.toNat < n) (hn : n ≤ 8192) : exactProduct r < n / 20 := by
  have hle : (r.toNat : ℚ) + 1 ≤ n := by exact_mod_cast hr
  have hn' : (n : ℚ) ≤ 8192 := by exact_mod_cast hn
  unfold exactProduct
  linarith

theorem le_exactProduct {r : RawField} {n : Nat} (hr : n ≤ r.toNat) : (n : ℚ) / 20 ≤ exactProduct r := by
  have hle : (n : ℚ) ≤ r.toNat := by exact_mod_cast hr
  unfold exactProduct
  linarith

/-- The first rounding, where the product is below 2^k. -/
theorem abs_roundedProduct_sub_le {k : Int} (hlow : -1021 ≤ k) (hk : exactProduct r < 2 ^ k) :
    |roundedProduct r - exactProduct r| ≤ 2 ^ (k - 54) := by
  have habs : |exactProduct r| = exactProduct r := abs_of_nonneg (exactProduct_nonneg r)
  have hle := exactProduct_le r
  exact abs_valRat_f64Rat_sub_le (by rwa [habs]) hlow (by rw [habs]; linarith)

theorem abs_roundedProduct_sub_le_of_all : |roundedProduct r - exactProduct r| ≤ 1 / 2 ^ 45 := by
  have hle := exactProduct_le r
  exact (abs_roundedProduct_sub_le r (k := 9) (by norm_num) (by norm_num; linarith)).trans (by norm_num)

/-- From 2^3 on the product has no smaller places than the difference, and the second rounding changes nothing. -/
theorem valRat_physicalValue_of_exactProduct_ge {k : Int} (hk : 3 ≤ k) (hlow : 2 ^ k ≤ exactProduct r)
    (hhigh : exactProduct r < 2 ^ (k + 1)) :
    valRat (physicalValue r) = roundedProduct r - 20 ∧ MultipleOf (k - 52) (valRat (physicalValue r)) := by
  have hle := exactProduct_le r
  have hk9 : k < 9 := (zpow_lt_zpow_iff_right₀ (by norm_num : (1 : ℚ) < 2)).mp (by norm_num; linarith)
  obtain ⟨herrLow, herrHigh⟩ := abs_le.mp (abs_roundedProduct_sub_le_of_all r)
  have habs : |exactProduct r| = exactProduct r := abs_of_nonneg (exactProduct_nonneg r)
  have hgrid : MultipleOf (k - 52) (roundedProduct r - 20) :=
    (multipleOf_valRat_f64Rat (by rwa [habs]) (by rw [habs]; linarith)).sub
      (MultipleOf.of_le (e := 2) (by omega) ⟨5, by norm_num⟩)
  have hge8 : (2 : ℚ) ^ (3 : Int) ≤ 2 ^ k := zpow_le_zpow_right₀ (by norm_num) hk
  have hdouble : (2 : ℚ) ^ (k + 1) = 2 ^ k * 2 := zpow_add_one₀ (by norm_num) k
  norm_num at hge8
  have hexact : valRat (physicalValue r) = roundedProduct r - 20 := by
    rw [physicalValue_eq_f64Rat]
    refine valRat_f64Rat_of_multipleOf hgrid (by omega) ?_ ?_
    · rw [show k - 52 + 53 = k + 1 by ring, abs_lt]
      constructor <;> linarith
    · rw [abs_le]
      constructor <;> linarith
  exact ⟨hexact, hexact ▸ hgrid⟩

/-- Where the second rounding changes nothing: from field 160 on. -/
theorem valRat_physicalValue_of_ge (hr : 160 ≤ r.toNat) :
    valRat (physicalValue r) = roundedProduct r - 20 ∧ MultipleOf (-49) (valRat (physicalValue r)) := by
  have hge8 : ((160 : Nat) : ℚ) / 20 ≤ exactProduct r := le_exactProduct hr
  norm_num at hge8
  have hpos : 0 < exactProduct r := by linarith
  have hk : 3 ≤ Int.log 2 (exactProduct r) := (Int.zpow_le_iff_le_log (by norm_num) hpos).mp (by norm_num; linarith)
  obtain ⟨hexact, hgrid⟩ := valRat_physicalValue_of_exactProduct_ge r hk
    (by exact_mod_cast Int.zpow_log_le_self (b := 2) (by norm_num) hpos)
    (by exact_mod_cast Int.lt_zpow_succ_log_self (b := 2) (by norm_num) (exactProduct r))
  exact ⟨hexact, hgrid.of_le (by omega)⟩

/-- Below field 160 the difference lies between -20 and -12, and the second rounding moves it too. -/
theorem valRat_physicalValue_of_lt (hr : r.toNat < 160) :
    |valRat (physicalValue r) - (exactProduct r - 20)| ≤ 1 / 2 ^ 46 ∧ MultipleOf (-49) (valRat (physicalValue r)) := by
  have hproduct : exactProduct r < ((160 : Nat) : ℚ) / 20 := exactProduct_lt hr (by norm_num)
  have hnonneg := exactProduct_nonneg r
  norm_num at hproduct
  obtain ⟨hlow, hhigh⟩ := abs_le.mp (abs_roundedProduct_sub_le r (k := 3) (by norm_num) (by norm_num; linarith))
  norm_num at hlow hhigh
  have habs : |roundedProduct r - 20| = 20 - roundedProduct r := by
    rw [abs_sub_comm]
    exact abs_of_nonneg (by linarith)
  rw [physicalValue_eq_f64Rat]
  have hgrid : MultipleOf (3 - 52) (valRat (f64Rat (roundedProduct r - 20))) :=
    multipleOf_valRat_f64Rat (by rw [habs]; norm_num; linarith) (by rw [habs]; linarith)
  obtain ⟨hlow', hhigh'⟩ := abs_le.mp (abs_valRat_f64Rat_sub_le (q := roundedProduct r - 20) (k := 5)
    (by rw [habs]; norm_num; linarith) (by norm_num) (by rw [habs]; linarith))
  norm_num at hlow' hhigh' hgrid
  refine ⟨?_, hgrid⟩
  rw [abs_le]
  constructor <;> norm_num <;> linarith

theorem multipleOf_valRat_physicalValue : MultipleOf (-49) (valRat (physicalValue r)) := by
  rcases lt_or_ge r.toNat 160 with hr | hr
  · exact (valRat_physicalValue_of_lt r hr).2
  · exact (valRat_physicalValue_of_ge r hr).2

/-- Below field 5120, whose product is 256, the roundings together move the result by at most 2^-46. -/
theorem abs_valRat_physicalValue_sub_le_of_lt (hr : r.toNat < 5120) :
    |valRat (physicalValue r) - (exactProduct r - 20)| ≤ 1 / 2 ^ 46 := by
  rcases lt_or_ge r.toNat 160 with hlow | hlow
  · exact (valRat_physicalValue_of_lt r hlow).1
  · have hproduct : exactProduct r < ((5120 : Nat) : ℚ) / 20 := exactProduct_lt hr (by norm_num)
    have hround := abs_roundedProduct_sub_le r (k := 8) (by norm_num) (by norm_num at hproduct ⊢; linarith)
    obtain ⟨hexact, -⟩ := valRat_physicalValue_of_ge r hlow
    rw [hexact, sub_sub_sub_cancel_right]
    exact hround.trans (by norm_num)

/-- From field 5120 on the results are multiples of 2^-44, half a unit of which the first rounding moves them at most. -/
theorem valRat_physicalValue_of_ge_5120 (hr : 5120 ≤ r.toNat) :
    |valRat (physicalValue r) - (exactProduct r - 20)| ≤ 1 / 2 ^ 45 ∧ MultipleOf (-44) (valRat (physicalValue r)) := by
  have hlow : ((5120 : Nat) : ℚ) / 20 ≤ exactProduct r := le_exactProduct hr
  have hhigh := exactProduct_le r
  norm_num at hlow
  obtain ⟨hexact, hgrid⟩ := valRat_physicalValue_of_exactProduct_ge r (k := 8) (by norm_num) (by norm_num; linarith)
    (by norm_num; linarith)
  norm_num at hgrid
  refine ⟨?_, hgrid⟩
  rw [hexact, sub_sub_sub_cancel_right]
  exact abs_roundedProduct_sub_le_of_all r

theorem abs_valRat_physicalValue_sub_le : |valRat (physicalValue r) - (exactProduct r - 20)| ≤ 1 / 2 ^ 45 := by
  rcases lt_or_ge r.toNat 5120 with hr | hr
  · exact (abs_valRat_physicalValue_sub_le_of_lt r hr).trans (by norm_num)
  · exact (valRat_physicalValue_of_ge_5120 r hr).1

end SclRoundings

/-! ### The distance of a result from the ideal (R102), counted in fifths of 2^-44 -/

theorem abs_lt_of_abs_fifths_lt {n c : Int} {x : ℚ} (hx : x = n / (5 * 2 ^ 44)) (h : |x| < c / (5 * 2 ^ 44)) :
    |n| < c := by
  rw [hx, abs_div, abs_of_pos (by norm_num : (0 : ℚ) < 5 * 2 ^ 44), div_lt_div_iff_of_pos_right (by norm_num)] at h
  exact_mod_cast h

theorem abs_fifths_le {n : Int} {x : ℚ} (hx : x = n / (5 * 2 ^ 44)) (hn : |n| ≤ 4) : |x| ≤ 1 / 21990232555520 := by
  have hq : |(n : ℚ)| ≤ 4 := by exact_mod_cast hn
  rw [hx, abs_div, abs_of_pos (by norm_num : (0 : ℚ) < 5 * 2 ^ 44), div_le_iff₀ (by norm_num)]
  norm_num
  exact hq

/-- Below field 5120 the roundings and the excess of C_SCALE are small; from there on they move the result by less than five
fifths, and the ideal is a number of fifths. -/
theorem abs_valRat_physicalValue_sub_ideal_le (r : RawField) :
    |valRat (physicalValue r) - (r.toNat / 20 - 20)| ≤ 1 / 21990232555520 := by
  rcases lt_or_ge r.toNat 5120 with hr | hr
  · obtain ⟨hlow, hhigh⟩ := abs_le.mp (abs_valRat_physicalValue_sub_le_of_lt r hr)
    have hr' : (r.toNat : ℚ) < 5120 := by exact_mod_cast hr
    have hnonneg : (0 : ℚ) ≤ r.toNat := by positivity
    rw [exactProduct] at hlow hhigh
    rw [abs_le]
    constructor <;> linarith
  · obtain ⟨hround, j, hj⟩ := valRat_physicalValue_of_ge_5120 r hr
    obtain ⟨hlow, hhigh⟩ := abs_le.mp hround
    have hr' : (r.toNat : ℚ) ≤ 8191 := by exact_mod_cast (by omega : r.toNat ≤ 8191)
    have hnonneg : (0 : ℚ) ≤ r.toNat := by positivity
    have hfifths : valRat (physicalValue r) - (r.toNat / 20 - 20) =
        (5 * j - 2 ^ 42 * (r.toNat - 400) : Int) / (5 * 2 ^ 44) := by
      rw [hj]
      push_cast
      norm_num
      ring
    refine abs_fifths_le hfifths (Int.lt_add_one_iff.mp (abs_lt_of_abs_fifths_lt hfifths ?_))
    rw [exactProduct] at hlow hhigh
    rw [abs_lt]
    constructor <;> norm_num <;> linarith

/-! ### SCL in the machine -/

theorem exec_scl (i : BitVec 3) (s : State) :
    exec (.scl i) s = .next (s.writeRes (physicalValue (fieldOf s.buf i.toNat))) := rfl

theorem res_of_exec_scl {s t : State} {i : BitVec 3} (h : exec (.scl i) s = .next t) :
    t.res = physicalValue (fieldOf s.buf i.toNat) := by
  rw [exec_scl] at h
  cases h
  rfl

/-- The results are near enough to the ideal, whose step is 1/20. -/
theorem valRat_physicalValue_lt {r r' : RawField} (h : r.toNat < r'.toNat) :
    valRat (physicalValue r) < valRat (physicalValue r') := by
  obtain ⟨-, hhigh⟩ := abs_le.mp (abs_valRat_physicalValue_sub_ideal_le r)
  obtain ⟨hlow, -⟩ := abs_le.mp (abs_valRat_physicalValue_sub_ideal_le r')
  have hstep : (r.toNat : ℚ) + 1 ≤ r'.toNat := by exact_mod_cast h
  linarith

/-- Settles O45: SCL puts the scaled field in RES, and scaling is strictly increasing. -/
theorem sclIsStrictlyIncreasing : Obligations.SclIsStrictlyIncreasing := by
  intro s s' t t' i i' ht ht' hlt
  rw [res_of_exec_scl ht, res_of_exec_scl ht']
  exact valRat_physicalValue_lt hlt

theorem physicalValue_of_toNat {r : RawField} {n : Nat} {x : Result} (hr : r.toNat = n)
    (hx : physicalValue (BitVec.ofNat 13 n) = x) : physicalValue r = x := by
  rw [← hx, ← hr, BitVec.ofNat_toNat, BitVec.setWidth_eq]

theorem valRat_physicalValue_6144 : valRat (physicalValue 6144#13) = 5052475831956276 / 17592186044416 :=
  valRat_of_fraction (by decide) (by decide)

/-- Settles O47: the bound holds of every scaled field, and field 6144 is evaluated. -/
theorem sclErrorBound : Obligations.SclErrorBound := by
  refine ⟨fun s t i ht => ?_, fun s t i ht hfield => ?_⟩
  · rw [res_of_exec_scl ht]
    exact abs_valRat_physicalValue_sub_ideal_le _
  · rw [res_of_exec_scl ht, physicalValue_of_toNat hfield rfl, valRat_physicalValue_6144]
    norm_num

/-! ### The step between successive results -/

section Step

variable {r r' : RawField} (hsucc : r'.toNat = r.toNat + 1)
include hsucc

theorem exactProduct_succ : exactProduct r' = exactProduct r + 1 / 20 + 1 / (5 * 2 ^ 56) := by
  rw [exactProduct, exactProduct, hsucc]
  push_cast
  ring

/-- Up to field 5120 one of the two roundings is the smaller one; beyond, the distance is one fifth of 2^-44, or five fifths
away from that. -/
theorem abs_step_sub_le :
    |valRat (physicalValue r') - valRat (physicalValue r) - 1 / 20| ≤ 1 / 21990232555520 := by
  have hproduct := exactProduct_succ hsucc
  obtain ⟨hlow', hhigh'⟩ := abs_le.mp (abs_valRat_physicalValue_sub_le r')
  rcases lt_or_ge r.toNat 5120 with hr | hr
  · obtain ⟨hlow, hhigh⟩ := abs_le.mp (abs_valRat_physicalValue_sub_le_of_lt r hr)
    rw [abs_le]
    constructor <;> linarith
  · obtain ⟨hround, j, hj⟩ := valRat_physicalValue_of_ge_5120 r hr
    obtain ⟨-, j', hj'⟩ := valRat_physicalValue_of_ge_5120 r' (by omega)
    obtain ⟨hlow, hhigh⟩ := abs_le.mp hround
    have hfifths : valRat (physicalValue r') - valRat (physicalValue r) - 1 / 20 =
        (5 * (j' - j) - 2 ^ 42 : Int) / (5 * 2 ^ 44) := by
      rw [hj, hj']
      push_cast
      norm_num
      ring
    have hsix : |5 * (j' - j) - 2 ^ 42| < 6 := abs_lt_of_abs_fifths_lt hfifths (by
      rw [abs_lt]
      constructor <;> norm_num <;> linarith)
    exact abs_fifths_le hfifths (by rw [abs_lt] at hsix; rw [abs_le]; omega)

end Step

/-- A difference of two results is a multiple of 2^-49, which neither 1/20 nor C_SCALE is. -/
theorem step_ne {x : ℚ} (hx : MultipleOf (-49) x) : x ≠ 1 / 20 ∧ x ≠ valRat Config.scaleConstant := by
  obtain ⟨j, rfl⟩ := hx
  refine ⟨fun h => ?_, fun h => ?_⟩
  · have hj : (j : ℚ) * 5 = 2 ^ 47 := by
      norm_num at h ⊢
      linarith
    have : j * 5 = 2 ^ 47 := by exact_mod_cast hj
    omega
  · rw [valRat_scaleConstant] at h
    have hj : (j : ℚ) * 128 = 3602879701896397 := by
      norm_num at h ⊢
      linarith
    have : j * 128 = 3602879701896397 := by exact_mod_cast hj
    omega

/-- Settles O48: the step is near 1/20 and a multiple of 2^-49, and subtracting the results gives it unrounded. -/
theorem sclStepIsNeverExact : Obligations.SclStepIsNeverExact := by
  intro s s' t t' i i' ht ht' hsucc
  rw [res_of_exec_scl ht, res_of_exec_scl ht']
  have hnear := abs_step_sub_le hsucc
  have hgrid := (multipleOf_valRat_physicalValue (fieldOf s'.buf i'.toNat)).sub
    (multipleOf_valRat_physicalValue (fieldOf s.buf i.toNat))
  obtain ⟨hideal, hscale⟩ := step_ne hgrid
  refine ⟨hnear, hideal, hscale, fun hsub => hscale ?_⟩
  obtain ⟨hlow, hhigh⟩ := abs_le.mp hnear
  rw [← hsub, f64Sub_eq_f64Rat]
  refine (valRat_f64Rat_of_multipleOf hgrid (by norm_num) ?_ ?_).symm
  · rw [abs_lt]
    constructor <;> norm_num <;> linarith
  · rw [abs_le]
    constructor <;> linarith

/-! ### The signs and the range of the results: the corners, and what lies between them -/

theorem valRat_physicalValue_le {r r' : RawField} (h : r.toNat ≤ r'.toNat) :
    valRat (physicalValue r) ≤ valRat (physicalValue r') := by
  rcases h.lt_or_eq with h | h
  · exact (valRat_physicalValue_lt h).le
  · rw [BitVec.eq_of_toNat_eq h]

theorem valRat_physicalValue_lt_iff {r r' : RawField} :
    valRat (physicalValue r) < valRat (physicalValue r') ↔ r.toNat < r'.toNat :=
  ⟨fun h => not_le.mp fun hle => (valRat_physicalValue_le hle).not_gt h, valRat_physicalValue_lt⟩

theorem valRat_physicalValue_0 : valRat (physicalValue 0#13) = -20 := by
  rw [valRat_of_fraction (n := -5629499534213120) (d := 281474976710656) (by decide) (by decide)]
  norm_num

theorem physicalValue_399 : physicalValue 399#13 = 0xBFA9999999999800#64 := by decide

theorem physicalValue_400 : physicalValue 400#13 = 0x0000000000000000#64 := by decide

theorem physicalValue_8191 : physicalValue 8191#13 = 0x407858CCCCCCCCCD#64 := by decide

theorem valRat_physicalValue_399 : valRat (physicalValue 399#13) = -7205759403792384 / 144115188075855872 :=
  valRat_of_fraction (by decide) (by decide)

theorem valRat_physicalValue_400 : valRat (physicalValue 400#13) = 0 := by
  rw [physicalValue_400, valRat_zero]

theorem valRat_physicalValue_401 : valRat (physicalValue 401#13) = 7205759403792896 / 144115188075855872 :=
  valRat_of_fraction (by decide) (by decide)

theorem valRat_physicalValue_8191 : valRat (physicalValue 8191#13) = 6853036073602253 / 17592186044416 :=
  valRat_of_fraction (by decide) (by decide)

section Range

variable (r : RawField)

theorem valRat_physicalValue_neg_iff : r.toNat < 400 ↔ valRat (physicalValue r) < 0 := by
  rw [← valRat_physicalValue_400, valRat_physicalValue_lt_iff]
  rfl

theorem valRat_physicalValue_pos_iff : 400 < r.toNat ↔ 0 < valRat (physicalValue r) := by
  rw [← valRat_physicalValue_400, valRat_physicalValue_lt_iff]
  rfl

theorem physicalValue_eq_zero_iff : r.toNat = 400 ↔ physicalValue r = 0x0000000000000000#64 := by
  refine ⟨fun h => physicalValue_of_toNat h physicalValue_400, fun h => ?_⟩
  have hneg := valRat_physicalValue_neg_iff r
  have hpos := valRat_physicalValue_pos_iff r
  simp only [h, valRat_zero, lt_irrefl, iff_false] at hneg hpos
  omega

theorem neg_20_le_valRat_physicalValue : -20 ≤ valRat (physicalValue r) := by
  rw [← valRat_physicalValue_0]
  exact valRat_physicalValue_le (Nat.zero_le _)

theorem abs_valRat_physicalValue_le : |valRat (physicalValue r)| ≤ valRat (physicalValue 8191#13) := by
  have hlow := neg_20_le_valRat_physicalValue r
  have hhigh : valRat (physicalValue r) ≤ valRat (physicalValue 8191#13) :=
    valRat_physicalValue_le (by simp only [BitVec.toNat_ofNat]; omega)
  refine abs_le.mpr ⟨?_, hhigh⟩
  rw [valRat_physicalValue_8191]
  linarith

/-- The results nearest to 0 are those of fields 399 and 401, and the first is the nearer one. -/
theorem le_abs_valRat_physicalValue (hr : r.toNat ≠ 400) :
    -valRat (physicalValue 399#13) ≤ |valRat (physicalValue r)| := by
  rcases lt_or_gt_of_ne hr with h | h
  · have hle : valRat (physicalValue r) ≤ valRat (physicalValue 399#13) := valRat_physicalValue_le (Nat.le_of_lt_succ h)
    exact (neg_le_neg hle).trans (neg_le_abs _)
  · have hle : valRat (physicalValue 401#13) ≤ valRat (physicalValue r) := valRat_physicalValue_le h
    refine le_trans ?_ (hle.trans (le_abs_self _))
    rw [valRat_physicalValue_399, valRat_physicalValue_401]
    norm_num

theorem physicalValue_normal (hr : r.toNat ≠ 400) :
    1 ≤ exponentField (physicalValue r) ∧ exponentField (physicalValue r) ≤ 2046 := by
  refine ⟨one_le_exponentField (le_trans ?_ (le_abs_valRat_physicalValue r hr)), ?_⟩
  · rw [valRat_physicalValue_399]
    calc (2 : ℚ) ^ (-1022 : Int) ≤ 2 ^ (-5 : Int) := zpow_le_zpow_right₀ (by norm_num) (by norm_num)
      _ ≤ _ := by norm_num
  · have hle := exactProduct_le r
    have hnonneg := exactProduct_nonneg r
    obtain ⟨hlow, hhigh⟩ := abs_le.mp (abs_roundedProduct_sub_le_of_all r)
    rw [physicalValue_eq_f64Rat]
    exact Nat.le_of_lt_succ (exponentField_f64Rat_lt (abs_le.mpr ⟨by linarith, by linarith⟩))

end Range

/-- Settles O46: the results are in the order of the fields, so the corners bound them. -/
theorem sclResultsAreNormalAndInRange : Obligations.SclResultsAreNormalAndInRange := by
  intro s t i ht
  rw [res_of_exec_scl ht, ← physicalValue_399, ← physicalValue_8191]
  refine ⟨valRat_physicalValue_neg_iff _, physicalValue_eq_zero_iff _, valRat_physicalValue_pos_iff _, ?_,
    neg_20_le_valRat_physicalValue _⟩
  rcases eq_or_ne (fieldOf s.buf i.toNat).toNat 400 with hr | hr
  · exact .inl ((physicalValue_eq_zero_iff _).mp hr)
  · obtain ⟨hnormal, hfinite⟩ := physicalValue_normal _ hr
    exact .inr ⟨hnormal, hfinite, le_abs_valRat_physicalValue _ hr, abs_valRat_physicalValue_le _⟩

/-- Settles O44: SCL writes the scaled field, a quotient of BUF, to RES, its corners are evaluated, and the listed words are
illegal. -/
theorem sclScalesOneField : Obligations.SclScalesOneField := by
  refine ⟨fun s i => ⟨_, exec_scl i s, fun r hr => ?_⟩, fun _ _ _ _ hphase hpending hop hunused =>
    step_of_illegal (illegal_of_opcode_ext_or_scl (.inr hop) hunused) hphase hpending⟩
  rw [← toNat_fieldOf] at hr
  subst hr
  exact ⟨rfl, fun h => physicalValue_of_toNat h (by decide), fun h => physicalValue_of_toNat h physicalValue_399,
    fun h => physicalValue_of_toNat h physicalValue_400, fun h => physicalValue_of_toNat h (by decide),
    fun h => physicalValue_of_toNat h physicalValue_8191, physicalValue_normal _⟩

/-! ### The patterns of the results over one denominator, by functions the kernel runs fast -/

/-- `roundHalfEven` with one division and no test. -/
def nearestEven (n d : Nat) : Nat := (2 * n + d - 1 + n / d % 2) / (2 * d)

theorem roundHalfEven_eq_nearestEven (n : Nat) {d : Nat} (hd : 0 < d) : roundHalfEven n d = nearestEven n d := by
  have hn := Nat.div_add_mod n d
  have hlt := Nat.mod_lt n hd
  have hodd : n / d % 2 < 2 := Nat.mod_lt _ (by norm_num)
  unfold roundHalfEven nearestEven
  generalize n / d = q at *
  generalize n % d = r at *
  subst hn
  have hsplit : 2 * (d * q + r) + d - 1 + q % 2 = 2 * r + d - 1 + q % 2 + 2 * d * q := by
    have : 2 * (d * q) = 2 * d * q := (mul_assoc 2 d q).symm
    omega
  rw [hsplit, Nat.add_mul_div_left _ _ (by omega)]
  split
  · rw [Nat.div_eq_of_lt_le (k := 1) (by omega) (by omega), add_comm]
  · rw [Nat.div_eq_of_lt (by omega), zero_add]

/-- How many places, at most k, the leading bit of A/D lies above bit 52. It is the recursor itself, which the kernel runs
in half the time that a definition by equations takes. -/
def placesAbove (A D k : Nat) : Nat := Nat.rec 0 (fun m below => bif Nat.ble (D <<< (m + 53)) A then m + 1 else below) k

theorem placesAbove_succ (A D k : Nat) :
    placesAbove A D (k + 1) = if D * 2 ^ (k + 53) ≤ A then k + 1 else placesAbove A D k := by
  have hrec : placesAbove A D (k + 1) = bif Nat.ble (D <<< (k + 53)) A then k + 1 else placesAbove A D k := rfl
  simp only [hrec, Nat.shiftLeft_eq, Bool.cond_eq_ite, Nat.ble_eq]

theorem placesAbove_spec {A D k : Nat} (hlow : D * 2 ^ 52 ≤ A) (hhigh : A < D * 2 ^ (k + 53)) :
    placesAbove A D k ≤ k ∧ D * 2 ^ (placesAbove A D k + 52) ≤ A ∧ A < D * 2 ^ (placesAbove A D k + 53) := by
  induction k with
  | zero => exact ⟨le_rfl, hlow, hhigh⟩
  | succ k ih =>
    rw [placesAbove_succ]
    split
    case isTrue h => exact ⟨le_rfl, by rwa [show k + 1 + 52 = k + 53 by ring], hhigh⟩
    case isFalse h =>
      obtain ⟨hk, hspec⟩ := ih (not_le.mp h)
      exact ⟨by omega, hspec⟩

/-- The pattern, without its sign, of the magnitude A/D in units of 2^-57 (its last place is places - 57, so at
places + 1017). -/
def magnitudeBits (A D : Nat) : Nat :=
  let places := placesAbove A D 13
  (places + 1017) <<< 52 + nearestEven A (D <<< places)

/-- The number A of units rounded to 53 bits, in units again. -/
def roundTo53 (A : Nat) : Nat :=
  let places := placesAbove A 1 13
  nearestEven A (1 <<< places) <<< places

/-- The significand in units of 2^(s - c), of a fraction over d * 2^c. -/
theorem significand_mul_two_pow (a d s c : Nat) :
    significand a (d * 2 ^ c) ((s : Int) - c) = roundHalfEven a (d * 2 ^ s) := by
  obtain ⟨u, hu⟩ : ∃ u, (-((s : Int) - c)).toNat = u := ⟨_, rfl⟩
  have hexp : c + ((s : Int) - c).toNat = s + u := by omega
  rw [significand, hu, mul_assoc, ← pow_add, hexp, pow_add, ← mul_assoc, roundHalfEven_mul_right (by positivity)]

theorem roundHalfEven_le {n d c : Nat} (h : n < d * c) : roundHalfEven n d ≤ c := by
  have hdiv : n / d < c := Nat.div_lt_of_lt_mul h
  unfold roundHalfEven
  split <;> omega

section Units

variable {a d : Nat} (hd : 0 < d)
include hd

theorem lastPlace_mul_two_pow {s : Nat} (hlow : d * 2 ^ (s + 52) ≤ a) (hhigh : a < d * 2 ^ (s + 53)) :
    lastPlace a (d * 2 ^ 57) = (s : Int) - 57 := by
  have ha : 0 < a := lt_of_lt_of_le (by positivity) hlow
  have hdq : (0 : ℚ) < d := by exact_mod_cast hd
  have hzpow (t : Nat) : (2 : ℚ) ^ ((t : Int) - 57) = d * 2 ^ t / (d * 2 ^ 57 : Nat) := by
    rw [zpow_sub₀ (by norm_num), zpow_natCast]
    push_cast
    exact (mul_div_mul_left _ _ hdq.ne').symm
  apply le_antisymm
  · have h := lastPlace_le_of_lt (k := ((s + 53 : Nat) : Int) - 57) ha (d := d * 2 ^ 57) (by positivity) (by
      rw [hzpow]
      gcongr
      exact_mod_cast hhigh) (by omega)
    omega
  · have h := le_lastPlace_of_le (k := ((s + 52 : Nat) : Int) - 57) ha (d := d * 2 ^ 57) (by positivity) (by
      rw [hzpow]
      gcongr
      exact_mod_cast hlow)
    omega

/-- A magnitude from 2^-5 to 2^9 over d * 2^57: its last place, its significand and a bound of that. -/
theorem places_units (hlow : d * 2 ^ 52 ≤ a) (hhigh : a < d * 2 ^ 66) :
    placesAbove a d 13 ≤ 13 ∧ lastPlace a (d * 2 ^ 57) = (placesAbove a d 13 : Int) - 57 ∧
    significand a (d * 2 ^ 57) ((placesAbove a d 13 : Int) - 57) = nearestEven a (d <<< placesAbove a d 13) ∧
    nearestEven a (d <<< placesAbove a d 13) ≤ 2 ^ 53 := by
  obtain ⟨hle, hlow', hhigh'⟩ := placesAbove_spec (k := 13) hlow hhigh
  have hpos : 0 < d * 2 ^ placesAbove a d 13 := by positivity
  rw [Nat.shiftLeft_eq, ← roundHalfEven_eq_nearestEven a hpos]
  refine ⟨hle, lastPlace_mul_two_pow hd hlow' hhigh', significand_mul_two_pow a d _ 57, roundHalfEven_le ?_⟩
  rwa [mul_assoc, ← pow_add]

/-- f64 of such a fraction, by its pattern. -/
theorem toNat_f64_units {n : Int} (hn : n.natAbs = a) (hlow : d * 2 ^ 52 ≤ a) (hhigh : a < d * 2 ^ 66) :
    (f64 n (d * 2 ^ 57)).toNat = (if n < 0 then 2 ^ 63 else 0) + magnitudeBits a d := by
  obtain ⟨hle, hplace, hsignificand, hbound⟩ := places_units hd hlow hhigh
  have hzero : n ≠ 0 := by
    rintro rfl
    have : 0 < d * 2 ^ 52 := by positivity
    omega
  have hexp : ((placesAbove a d 13 : Int) - 57 + 1074).toNat = placesAbove a d 13 + 1017 := by omega
  simp only [f64, if_neg hzero, hn, hplace, hsignificand, hexp, BitVec.toNat_ofNat, magnitudeBits,
    Nat.shiftLeft_eq] at hbound ⊢
  rw [Nat.mod_eq_of_lt (by split <;> omega), add_assoc]

theorem roundedValue_units (hlow : d * 2 ^ 52 ≤ a) (hhigh : a < d * 2 ^ 66) :
    roundedValue a (d * 2 ^ 57) = (nearestEven a (d <<< placesAbove a d 13) <<< placesAbove a d 13 : Nat) / 2 ^ 57 := by
  obtain ⟨-, hplace, hsignificand, -⟩ := places_units hd hlow hhigh
  rw [roundedValue, hplace, hsignificand, Nat.shiftLeft_eq (nearestEven _ _), zpow_sub₀ (by norm_num), zpow_natCast]
  push_cast
  ring

end Units

/-! ### The three forms that R102 compares, by their patterns: C_SCALE is 7205759403792794 / 2^57, and 20.0 is
2882303761517117440 / 2^57 -/

/-- The magnitude of the result of SCL: the product is rounded to 53 bits before 20.0 is taken off. -/
def scaledBits (r : Nat) : Nat := magnitudeBits (Nat.dist (roundTo53 (r * 7205759403792794)) 2882303761517117440) 1

/-- The magnitude of the correctly rounded ideal, (r - 400)/20. -/
def idealBits (r : Nat) : Nat := magnitudeBits (Nat.dist r 400 <<< 57) 20

/-- The magnitude of the fused form, which does not round the product. -/
def fusedBits (r : Nat) : Nat := magnitudeBits (Nat.dist (r * 7205759403792794) 2882303761517117440) 1

/-- The sign bit of all three. -/
def signBits (r : Nat) : Nat := if r < 400 then 2 ^ 63 else 0

theorem natAbs_sub_eq_dist (a b : Nat) : ((a : Int) - b).natAbs = Nat.dist a b := by
  unfold Nat.dist
  omega

theorem roundedProduct_eq (r : RawField) :
    roundedProduct r = (roundTo53 (r.toNat * 7205759403792794) : Nat) / 2 ^ 57 := by
  have hfraction : f64Rat (exactProduct r) = f64 ((r.toNat * 7205759403792794 : Nat) : Int) (1 * 2 ^ 57) := by
    rw [f64_eq_f64Rat _ (by norm_num), exactProduct]
    congr 1
    push_cast
    ring
  rw [roundedProduct, hfraction]
  rcases Nat.eq_zero_or_pos r.toNat with hr | hr
  · rw [hr, show roundTo53 (0 * 7205759403792794) = 0 by decide, zero_mul, Nat.cast_zero, f64_zero, valRat_zero]
    norm_num
  · obtain ⟨-, -, hval, -⟩ := f64_finite (n := ((r.toNat * 7205759403792794 : Nat) : Int)) (d := 1 * 2 ^ 57) (by omega)
      (by norm_num) (le_of_le_two_pow_53 (by rw [Int.natAbs_natCast]; omega) (by norm_num))
    rw [hval, Int.natAbs_natCast, roundedValue_units Nat.one_pos (by omega) (by omega),
      Int.sign_natCast_of_ne_zero (by omega), Int.cast_one, one_mul, roundTo53]

/-- The first rounding leaves the product within 2^12 units. -/
theorem dist_roundTo53_le (r : RawField) :
    Nat.dist (roundTo53 (r.toNat * 7205759403792794)) (r.toNat * 7205759403792794) ≤ 4096 := by
  have hround := abs_roundedProduct_sub_le_of_all r
  rw [roundedProduct_eq, exactProduct] at hround
  generalize roundTo53 (r.toNat * 7205759403792794) = m at *
  obtain ⟨hlow, hhigh⟩ := abs_le.mp hround
  have hlow' : (r.toNat : ℚ) * 7205759403792794 ≤ m + 4096 := by linarith
  have hhigh' : (m : ℚ) ≤ r.toNat * 7205759403792794 + 4096 := by linarith
  have hlowNat : r.toNat * 7205759403792794 ≤ m + 4096 := by exact_mod_cast hlow'
  have hhighNat : m ≤ r.toNat * 7205759403792794 + 4096 := by exact_mod_cast hhigh'
  unfold Nat.dist
  omega

section Patterns

variable {r : Nat} (hr : r < 8192) (hne : r ≠ 400)
include hr hne

theorem toNat_ideal : (f64 ((r : Int) - 400) 20).toNat = signBits r + idealBits r := by
  have hdist := natAbs_sub_eq_dist r 400
  have hn : (((r : Int) - 400) * (2 ^ 57 : Nat)).natAbs = Nat.dist r 400 <<< 57 := by
    rw [Nat.shiftLeft_eq, Int.natAbs_mul, ← hdist]
    rfl
  have hneg : ((r : Int) - 400) * (2 ^ 57 : Nat) < 0 ↔ r < 400 := by omega
  rw [← f64_mul_right (c := 2 ^ 57) (by norm_num) _ (by norm_num : 0 < 20), toNat_f64_units (by norm_num) hn, signBits,
    idealBits]
  · simp only [hneg]
  all_goals
    rw [Nat.shiftLeft_eq]
    omega

/-- A product near enough to the exact one, minus 20. -/
theorem toNat_f64_sub_offset {m : Nat} (hm : Nat.dist m (r * 7205759403792794) ≤ 4096) :
    (f64 ((m : Int) - (2882303761517117440 : Nat)) (1 * 2 ^ 57)).toNat =
      signBits r + magnitudeBits (Nat.dist m 2882303761517117440) 1 := by
  have hneg : (m : Int) - (2882303761517117440 : Nat) < 0 ↔ r < 400 := by
    unfold Nat.dist at hm
    omega
  rw [toNat_f64_units Nat.one_pos (natAbs_sub_eq_dist m _), signBits]
  · simp only [hneg]
  all_goals
    unfold Nat.dist at *
    omega

theorem toNat_fused :
    (f64 ((r : Int) * 3602879701896397 - 20 * 2 ^ 56) (2 ^ 56)).toNat = signBits r + fusedBits r := by
  rw [fusedBits, ← toNat_f64_sub_offset hr hne (by rw [Nat.dist_self]; norm_num),
    f64_congr (n' := ((r * 7205759403792794 : Nat) : Int) - (2882303761517117440 : Nat)) (d' := 1 * 2 ^ 57) (by norm_num)
      (by norm_num)]
  push_cast
  ring

theorem toNat_scaled : (physicalValue (BitVec.ofNat 13 r)).toNat = signBits r + scaledBits r := by
  have hfield : (BitVec.ofNat 13 r).toNat = r := Nat.mod_eq_of_lt hr
  have hproduct := roundedProduct_eq (BitVec.ofNat 13 r)
  have hnear := dist_roundTo53_le (BitVec.ofNat 13 r)
  rw [hfield] at hproduct hnear
  rw [scaledBits, ← toNat_f64_sub_offset hr hne hnear, physicalValue_eq_f64Rat, hproduct, f64_eq_f64Rat _ (by norm_num)]
  congr 2
  push_cast
  ring

end Patterns

/-! ### The counts -/

section Domain

variable {r : Nat} (hr : r < 8192)
include hr

/-- The distance of a result from the ideal in units of the last place: the sign bits cancel, and field 400 gives 0 in
both. -/
theorem apart_eq_dist :
    ((physicalValue (BitVec.ofNat 13 r)).toNat - (f64 ((r : Int) - 400) 20).toNat) +
      ((f64 ((r : Int) - 400) 20).toNat - (physicalValue (BitVec.ofNat 13 r)).toNat) =
      Nat.dist (scaledBits r) (idealBits r) := by
  rcases eq_or_ne r 400 with rfl | hne
  · decide
  · rw [toNat_scaled hr hne, toNat_ideal hr hne]
    exact Nat.dist_add_add_left _ _ _

theorem toNat_scaled_ne_fused_iff :
    (physicalValue (BitVec.ofNat 13 r)).toNat ≠ (f64 ((r : Int) * 3602879701896397 - 20 * 2 ^ 56) (2 ^ 56)).toNat ↔
      scaledBits r ≠ fusedBits r := by
  rcases eq_or_ne r 400 with rfl | hne
  · decide
  · rw [toNat_scaled hr hne, toNat_fused hr hne, ne_eq, Nat.add_left_cancel_iff]

end Domain

/-- The whole domain of R102, evaluated; the tests are those the kernel runs fast. -/
theorem counts_of_bits :
    (List.range 8192).countP (fun r => Nat.beq (Nat.dist (scaledBits r) (idealBits r)) 0) = 4872 ∧
    (List.range 8192).countP (fun r => Nat.beq (Nat.dist (scaledBits r) (idealBits r)) 1) = 2996 ∧
    (List.range 8192).countP (fun r => Nat.ble 242 r && Nat.ble r 1676 &&
      Nat.ble 2 (Nat.dist (scaledBits r) (idealBits r)) && Nat.ble (Nat.dist (scaledBits r) (idealBits r)) 410) = 324 ∧
    (List.range 8192).countP (fun r => !Nat.beq (scaledBits r) (fusedBits r)) = 1266 := by
  decide +kernel

theorem countP_range_congr {n c : Nat} {p q : Nat → Bool} (hq : (List.range n).countP q = c)
    (h : ∀ r < n, p r = true ↔ q r = true) : (List.range n).countP p = c :=
  (List.countP_congr fun r hr => h r (List.mem_range.mp hr)).trans hq

/-- Settles O49: over the domain the three forms are what their patterns by magnitudeBits say, which are counted. -/
theorem scalerRoundingCounts : Obligations.ScalerRoundingCounts := by
  obtain ⟨hequal, hone, hmore, hfused⟩ := counts_of_bits
  refine ⟨countP_range_congr hequal fun r hr => ?_, countP_range_congr hone fun r hr => ?_,
    countP_range_congr hmore fun r hr => ?_, ?_, countP_range_congr hfused fun r hr => ?_, by decide⟩
  · simp [apart_eq_dist hr]
  · simp [apart_eq_dist hr]
  · simp [apart_eq_dist hr]
  · exact (apart_eq_dist (by norm_num)).trans (by decide)
  · simpa [← Bool.not_eq_true] using toNat_scaled_ne_fused_iff hr

end Sys2Proof.Proofs

/-!
PROOFS: the family 43_pack.md (INS, and the fields written by ENCODE).
-/
namespace Sys2Proof.Proofs

open Machine

/-! ### The value of INS: the 13 bits of a field and the three bits above them -/

theorem getLsbD_eq_false_of_lt_8192 {v : InsValue} (hv : v.toNat < 8192) {k : Nat} (hk : 13 ≤ k) :
    v.getLsbD k = false :=
  Nat.testBit_lt_two_pow (hv.trans_le (Nat.pow_le_pow_right two_pos hk))

theorem overflows_eq_true_iff (v : InsValue) : overflows v = true ↔ 8192 ≤ v.toNat := decide_eq_true_iff

theorem toNat_setWidth_lt_8192 (r : RawField) : (r.setWidth 16).toNat < 8192 := by
  rw [BitVec.toNat_setWidth_of_le (by decide)]
  exact r.isLt

theorem overflows_setWidth (r : RawField) : overflows (r.setWidth 16) = false :=
  decide_eq_false (toNat_setWidth_lt_8192 r).not_ge

/-- OVF says whether one of the three bits above the field is set. -/
theorem overflows_iff_spill_ne_zero (v : InsValue) : overflows v = true ↔ v.extractLsb' 13 3 ≠ 0 := by
  have hlt := v.isLt
  rw [overflows_eq_true_iff, ne_eq, ← BitVec.toNat_inj, BitVec.extractLsb'_toNat, Nat.shiftRight_eq_div_pow,
    BitVec.ofNat_eq_ofNat, BitVec.toNat_zero]
  omega

/-! ### A pack seen by bits, by fields and by bytes (R111, R112) -/

section Pack

variable (b : Buffer) (v : InsValue) {i : Nat}

/-- Outside the span of field i, a bit of the buffer changes only where v has a bit to OR in. -/
theorem getLsbD_pack_of_outside {n : Nat} (hn : n < 104) (houtside : n < 13 * i ∨ 13 * i + 13 ≤ n)
    (hunset : 13 * i ≤ n → v.getLsbD (n - 13 * i) = false) : (pack b i v).getLsbD n = b.getLsbD n := by
  rw [getLsbD_pack _ _ _ _ hn, if_neg (by omega)]
  by_cases hle : 13 * i ≤ n
  · simp [hunset hle]
  · simp [hle]

theorem fieldOf_pack_same (hi : i < 8) : fieldOf (pack b i v) i = v.setWidth 13 := by
  apply BitVec.eq_of_getLsbD_eq
  intro k hk
  rw [getLsbD_fieldOf, getLsbD_pack _ _ _ _ (by omega), if_pos (by omega), Nat.add_sub_cancel_left,
    BitVec.getLsbD_setWidth]

theorem fieldOf_pack_next (hi : i < 7) :
    fieldOf (pack b i v) (i + 1) = fieldOf b (i + 1) ||| (v >>> 13).setWidth 13 := by
  apply BitVec.eq_of_getLsbD_eq
  intro k hk
  rw [getLsbD_fieldOf, getLsbD_pack _ _ _ _ (by omega), if_neg (by omega), BitVec.getLsbD_or, getLsbD_fieldOf]
  simp [hk, show 13 * i ≤ 13 * (i + 1) + k by omega, show 13 * (i + 1) + k - 13 * i = 13 + k by omega]

theorem fieldOf_pack_of_unset {m : Nat} (hm : m < 8) (hne : m ≠ i)
    (hunset : ∀ k < 13, i < m → v.getLsbD (13 * (m - i) + k) = false) : fieldOf (pack b i v) m = fieldOf b m := by
  apply BitVec.eq_of_getLsbD_eq
  intro k hk
  rw [getLsbD_fieldOf, getLsbD_fieldOf, getLsbD_pack_of_outside b v (by omega) (by omega) fun hle => ?_]
  rw [show 13 * m + k - 13 * i = 13 * (m - i) + k by omega]
  exact hunset k hk (by omega)

theorem fieldOf_pack_of_far {m : Nat} (hm : m < 8) (hne : m ≠ i) (hnext : m ≠ i + 1) :
    fieldOf (pack b i v) m = fieldOf b m :=
  fieldOf_pack_of_unset b v hm hne fun _ _ _ => BitVec.getLsbD_of_ge _ _ (by omega)

theorem fieldOf_pack_of_fits {m : Nat} (hv : v.toNat < 8192) (hm : m < 8) (hne : m ≠ i) :
    fieldOf (pack b i v) m = fieldOf b m :=
  fieldOf_pack_of_unset b v hm hne fun _ _ _ => getLsbD_eq_false_of_lt_8192 hv (by omega)

/-- A byte without a bit of the field and, where v spills, without a bit of the three places above it, is kept. -/
theorem byteOf_pack_of_apart {j : Nat} (hj : j < 13) (hfield : ¬ FieldMeetsByte i j)
    (hspill : v.toNat < 8192 ∨ 8 * j + 7 < 13 * i + 13 ∨ 13 * i + 15 < 8 * j) :
    byteOf (pack b i v) j = byteOf b j := by
  apply BitVec.eq_of_getLsbD_eq
  intro k hk
  rw [FieldMeetsByte] at hfield
  rw [getLsbD_byteOf, getLsbD_byteOf, getLsbD_pack_of_outside b v (by omega) (by omega) fun hle => ?_]
  rcases hspill with hv | hbelow | habove
  · exact getLsbD_eq_false_of_lt_8192 hv (by omega)
  · omega
  · exact BitVec.getLsbD_of_ge _ _ (by omega)

end Pack

/-! ### A pack as a number (R111) -/

section Number

variable (b : Buffer) (i : Nat)

/-- The mask of R111 cuts out the field, in its place. -/
theorem and_fieldMask : b &&& (0x1FFF#104) <<< (13 * i) = (fieldOf b i).setWidth 104 <<< (13 * i) := by
  have hmask (n : Nat) : (0x1FFF#104).getLsbD n = decide (n < 13) := getLsbD_ones 13 n (by decide)
  apply BitVec.eq_of_getLsbD_eq
  intro n hn
  rw [BitVec.getLsbD_and, BitVec.getLsbD_shiftLeft, BitVec.getLsbD_shiftLeft, BitVec.getLsbD_setWidth, hmask,
    getLsbD_fieldOf]
  by_cases hbelow : n < 13 * i
  · simp [hbelow]
  · simp [hn, hbelow, show n - 13 * i < 104 by omega, show 13 * i + (n - 13 * i) = n by omega, Bool.and_comm]

theorem toNat_and_fieldMask : (b &&& (0x1FFF#104) <<< (13 * i)).toNat =
    b.toNat / 2 ^ (13 * i) % 2 ^ 13 * 2 ^ (13 * i) := by
  have hle : b.toNat / 2 ^ (13 * i) % 2 ^ 13 * 2 ^ (13 * i) ≤ b.toNat :=
    (Nat.mul_le_mul_right _ (Nat.mod_le _ _)).trans (Nat.div_mul_le_self _ _)
  rw [and_fieldMask, BitVec.toNat_shiftLeft, BitVec.toNat_setWidth_of_le (by decide), toNat_fieldOf, Nat.shiftLeft_eq,
    Nat.mod_eq_of_lt (hle.trans_lt b.isLt)]

/-- What a mask cuts out and what it leaves have no bit in common and make up the buffer. -/
theorem toNat_and_not (m : Buffer) : (b &&& ~~~m).toNat = b.toNat - (b &&& m).toNat := by
  have hdisjoint : (b &&& m) &&& (b &&& ~~~m) = 0#104 := by
    rw [BitVec.and_comm b (~~~m), ← BitVec.and_assoc, BitVec.and_assoc b, BitVec.and_not_self]
    simp
  have hunion : (b &&& m) ||| (b &&& ~~~m) = b := by
    rw [← BitVec.and_or_distrib_left, BitVec.or_not_self, BitVec.and_allOnes]
  have hsum := BitVec.toNat_add_of_and_eq_zero hdisjoint
  rw [BitVec.add_eq_or_of_and_eq_zero _ _ hdisjoint, hunion] at hsum
  omega

theorem toNat_pack (v : InsValue) : (pack b i v).toNat =
    (b.toNat - b.toNat / 2 ^ (13 * i) % 2 ^ 13 * 2 ^ (13 * i)) ||| (v.toNat * 2 ^ (13 * i) % 2 ^ 104) := by
  rw [pack, BitVec.toNat_or, toNat_and_not, toNat_and_fieldMask, BitVec.toNat_shiftLeft,
    BitVec.toNat_setWidth_of_le (by decide), Nat.shiftLeft_eq]

end Number

/-! ### INS -/

/-- INS and the reasons of R66 for its word to be illegal, which O3 gives as ranges of bits. -/
theorem illegal_of_opcode_ins {c : Word} (hop : opOf c = 6#4)
    (hunused : c.extractLsb' 7 1 ≠ 0 ∨ c.extractLsb' 8 8 ≠ 0) : legal c = false := by
  obtain ⟨-, -, hreasons, -⟩ := legalityCheckIsTheDecoder c
  exact hreasons.mpr (.inr (.inr (.inr (.inr (.inr (.inl ⟨hop, hunused⟩))))))

/-- Settles O50: INS writes the pack, a number, to BUF, and the listed words are illegal. -/
theorem insPacksOneField : Obligations.InsPacksOneField :=
  ⟨fun s i v => ⟨_, exec_ins i v s, toNat_pack s.buf i.toNat v⟩, fun _ _ _ _ hphase hpending hop hunused =>
    step_of_illegal (illegal_of_opcode_ins hop hunused) hphase hpending⟩

/-- Settles O52: OVF is written from v alone, and INS does not read it. -/
theorem insReportsOverflow : Obligations.InsReportsOverflow := fun s i v _ =>
  ⟨_, _, exec_ins i v s, exec_ins i v _, overflows_eq_true_iff v, overflows_iff_spill_ne_zero v, rfl⟩

/-- Settles O51: the fields of a pack. -/
theorem insSpillsIntoTheNextField : Obligations.InsSpillsIntoTheNextField := by
  intro s i v
  refine ⟨_, exec_ins i v s, ?_, fun hi => ?_, fun m => fieldOf_pack_of_far s.buf v,
    fun hv m => fieldOf_pack_of_fits s.buf v hv⟩
  · rw [State.writeOvf_buf, State.writeBuf_buf, fieldOf_pack_same _ _ i.isLt, BitVec.toNat_setWidth]
  · rw [State.writeOvf_buf, State.writeBuf_buf, fieldOf_pack_next _ _ hi, BitVec.toNat_or, BitVec.toNat_setWidth,
      BitVec.toNat_ushiftRight, Nat.shiftRight_eq_div_pow, Nat.mod_eq_of_lt (by omega)]

/-- Settles O53: a byte that changes has a bit of the field or, if v spills, one of the three above it, which
field 7 does not have. -/
theorem insChangesOnlyTheBytesOfItsBits : Obligations.InsChangesOnlyTheBytesOfItsBits := by
  refine fun s i v => ⟨_, exec_ins i v s, fun j hj hne => ?_⟩
  by_contra hapart
  obtain ⟨hfield, hspill⟩ := not_or.mp hapart
  exact hne (byteOf_pack_of_apart s.buf v hj hfield (by omega))

/-! ### ENCODE (R70): the fields written one after the other -/

/-- The buffer b with the values packed in at their field indexes, in this order. -/
def packAll (writes : List (BitVec 3 × InsValue)) (b : Buffer) : Buffer :=
  writes.foldl (fun b w => pack b w.1.toNat w.2) b

/-- INS commands pack their values, OVF is the last one's (R24 of 10_state.md), and no other register changes. -/
theorem runInputs_ins (writes : List (BitVec 3 × InsValue)) {s : State} {k : Nat} (hphase : s.phase = .running k) :
    runInputs (presentAll (writes.map fun w => .ins w.1 w.2)) s =
      .next { s with buf := packAll writes s.buf, ovf := writes.foldl (fun _ w => overflows w.2) s.ovf,
                     phase := .running (k + writes.length), pending := [] } := by
  induction writes generalizing s k with
  | nil => rw [List.length_nil, Nat.add_zero, ← hphase]; rfl
  | cons w writes ih =>
    rw [List.map_cons, runInputs_presentAll_cons rfl hphase (exec_ins w.1 w.2 _), ih rfl, List.length_cons,
      Nat.add_assoc, Nat.add_comm 1]
    rfl

/-- CLR and the writes: from any buffer, the values are packed into the zero buffer. -/
theorem runInputs_encodeCommands (writes : List (BitVec 3 × InsValue)) {s : State} {k : Nat}
    (hphase : s.phase = .running k) :
    runInputs (presentAll (encodeCommands writes)) s =
      .next { s with buf := packAll writes 0, ovf := writes.foldl (fun _ w => overflows w.2) s.ovf,
                     phase := .running (k + 1 + writes.length), pending := [] } := by
  rw [encodeCommands, runInputs_presentAll_cons rfl hphase (exec_clr _), runInputs_ins writes rfl]
  rfl

section FieldValues

variable (f : BitVec 3 → RawField)

/-- The writes of ENCODE for the field values f, in the given order. -/
def fieldWrites (order : List (BitVec 3)) : List (BitVec 3 × InsValue) := order.map fun i => (i, (f i).setWidth 16)

/-- Field values do not spill, so a field holds what was written there, whatever the order. -/
theorem fieldOf_packAll (order : List (BitVec 3)) (b : Buffer) (i : BitVec 3) :
    fieldOf (packAll (fieldWrites f order) b) i.toNat = if i ∈ order then f i else fieldOf b i.toNat := by
  induction order generalizing b with
  | nil => rfl
  | cons m order ih =>
    rw [fieldWrites, List.map_cons, packAll, List.foldl_cons, ← packAll, ← fieldWrites, ih]
    by_cases him : i = m
    · simp [him, fieldOf_pack_same _ _ m.isLt]
    · simp [him, fieldOf_pack_of_fits _ _ (toNat_setWidth_lt_8192 (f m)) i.isLt (BitVec.toNat_ne.mp him)]

variable {order : List (BitVec 3)} (horder : order.Perm [0, 1, 2, 3, 4, 5, 6, 7])
include horder

theorem fieldOf_packAll_perm (i : BitVec 3) (b : Buffer) :
    fieldOf (packAll (fieldWrites f order) b) i.toNat = f i := by
  have hall : ∀ i : BitVec 3, i ∈ [0, 1, 2, 3, 4, 5, 6, 7] := by decide
  rw [fieldOf_packAll, if_pos (horder.mem_iff.mpr (hall i))]

theorem runInputs_encodeFields {s : State} {k : Nat} (hphase : s.phase = .running k) :
    runInputs (presentAll (encodeCommands (fieldWrites f order))) s =
      .next { s with buf := packAll (fieldWrites f order) 0, ovf := false,
                     phase := .running (k + 9), pending := [] } := by
  have hovf : (fieldWrites f order).foldl (fun _ w => overflows w.2) s.ovf = false := by
    simp only [fieldWrites, List.foldl_map, overflows_setWidth]
    cases order with
    | nil => exact absurd horder.length_eq (by decide)
    | cons _ order => exact List.foldl_fixed' (fun _ => rfl) order
  rw [runInputs_encodeCommands _ hphase, hovf, fieldWrites, List.length_map, horder.length_eq]
  rfl

end FieldValues

/-- Settles O54: all eight fields are written, and they determine the buffer. -/
theorem encodeOfDecodedFieldsIsTheBuffer : Obligations.EncodeOfDecodedFieldsIsTheBuffer := by
  intro s k b order hphase horder
  refine ⟨fun i => exec_ext i _, ?_⟩
  have hbuf : packAll (fieldWrites (fun i => fieldOf b i.toNat) order) 0 = b := by
    refine buffer_ext_fields fun m hm => ?_
    have hfield := fieldOf_packAll_perm (fun i => fieldOf b i.toNat) horder (BitVec.ofNat 3 m) 0
    rwa [toNat_ofNat_fieldIndex ⟨m, hm⟩] at hfield
  have hrun := runInputs_encodeFields (fun i => fieldOf b i.toNat) horder hphase
  rwa [hbuf] at hrun

/-- Settles O55: each field holds the value written to it, and INS 1, 0 clears the bit that INS 0, 8192 spills if it
comes later. -/
theorem decodeOfEncodedFieldsIsTheFields : Obligations.DecodeOfEncodedFieldsIsTheFields := by
  constructor
  · intro s k f order hphase horder
    refine ⟨_, runInputs_encodeFields f horder hphase, fun i => ?_⟩
    rw [exec_ext, fieldOf_packAll_perm f horder]
    rfl
  · intro s k hphase
    refine ⟨_, _, runInputs_ins [(0, 8192), (1, 0)] hphase, fieldOf_pack_same _ 0 (by decide),
      runInputs_ins [(1, 0), (0, 8192)] hphase, ?_⟩
    have hwritten : fieldOf (pack s.buf 1 0) 1 = 0 := fieldOf_pack_same _ 0 (by decide)
    exact (fieldOf_pack_next (i := 0) (pack s.buf 1 0) 8192 (by decide)).trans (by rw [hwritten]; rfl)

end Sys2Proof.Proofs

/-!
PROOFS: the family 60_exceptions.md (the one exception, and a machine that never stops).
-/
namespace Sys2Proof.Proofs

open Machine

/-! ### Runs, one step at a time -/

theorem runEdges_succ_of_step {s t : State} (h : step s = .next t) (n : Nat) :
    runEdges (n + 1) s = runEdges n t := by
  rw [runEdges, h]

/-- Every step answers a next state and takes one input off the list. -/
theorem step_next (s : State) : ∃ t, step s = .next t ∧ t.pending = s.pending.tail :=
  performEdge_next s.nextEdge s.dropEdge

theorem runEdges_one (s : State) : runEdges 1 s = step s := by
  obtain ⟨t, ht, -⟩ := step_next s
  rw [runEdges_succ_of_step ht, ht, runEdges]

/-- Settles O17, by induction on the number of edges: each step answers a next state. -/
theorem everyEdgeCompletes : Obligations.EveryEdgeCompletes := by
  intro s n
  induction n generalizing s with
  | zero => exact ⟨s, rfl, rfl⟩
  | succ n ih =>
    obtain ⟨t, hstep, htail⟩ := step_next s
    obtain ⟨u, hrun, hdrop⟩ := ih t
    exact ⟨u, by rw [runEdges_succ_of_step hstep, hrun], by rw [hdrop, htail, List.drop_tail]⟩

/-! ### IllegalCommand -/

/-- Settles O9: the illegal word raises ILL, and the state after it is one from which O8 performs the next command. -/
theorem illegalCommandSetsIllAlone : Obligations.IllegalCommandSetsIllAlone := by
  intro s k c es hphase hpending hillegal
  have hstep := step_of_illegal hillegal hphase hpending
  refine ⟨hstep, fun c' es' i hes hdecode => ?_⟩
  rw [runEdges_succ_of_step hstep, runEdges_one]
  exact stepRunsTheDecodedInstruction _ (k + 1) c' es' i rfl hes hdecode

end Sys2Proof.Proofs

/-!
PROOFS: the family 70_reset_and_hazards.md (reset, and the edges before the first one).
-/
namespace Sys2Proof.Proofs

open Machine

/-! ### One edge -/

/-- A reset edge leaves the reset state and the inputs after it, from any state and phase. -/
theorem step_of_pending_rst {s : State} {e : Edge} {es : List Edge} (hpending : s.pending = e :: es)
    (hrst : e.rst = true) : step s = .next (State.reset.withPending es) := by
  rw [step_of_pending_cons hpending, performEdge_rst _ hrst]
  rfl

/-- Settles O12: what the reset edge presents on the command port does not show in the state after it. -/
theorem resetWinsOverACommand : Obligations.ResetWinsOverACommand := fun _ _ _ => step_of_pending_rst

/-- Settles O15: before the first reset, an edge without reset draws the registers anew. -/
theorem edgeBeforeTheFirstResetLeavesFreeValues : Obligations.EdgeBeforeTheFirstResetLeavesFreeValues := by
  intro s n e es hphase hpending hrst
  rw [step_of_pending_cons hpending, performEdge_powerUp hrst (s := s.withPending es) hphase]
  rfl

/-! ### Runs that end with a reset edge -/

/-- The edges before the reset edge use up their inputs, so the run comes to the reset edge. -/
theorem runEdges_to_rst (s : State) (es fs : List Edge) {e : Edge} (hrst : e.rst = true) :
    runEdges (es.length + 1) (s.withPending (es ++ e :: fs)) = .next (State.reset.withPending fs) := by
  obtain ⟨t, hrun, hdrop⟩ := everyEdgeCompletes (s.withPending (es ++ e :: fs)) es.length
  have hpending : t.pending = e :: fs := by rw [hdrop, State.withPending_pending, List.drop_left]
  rw [runEdges_add es.length 1 _ hrun, runEdges_one, step_of_pending_rst hpending hrst]

/-- Settles O14: the run comes to the reset edge whatever the inputs before it did. -/
theorem resetErasesTheHistory : Obligations.ResetErasesTheHistory := fun s es fs _ hrst => runEdges_to_rst s es fs hrst

/-- Settles O13: of several reset edges the last one alone decides; CLR writes BUF alone. -/
theorem resetSetsEveryRegisterToZero : Obligations.ResetSetsEveryRegisterToZero := by
  refine ⟨fun es s hne hrst => ?_, exec_clr⟩
  have hlast : (es.getLast hne).rst = true := hrst _ (List.getLast_mem hne)
  rw [← List.dropLast_concat_getLast hne, runInputs, List.length_append]
  exact runEdges_to_rst s es.dropLast [] hlast

end Sys2Proof.Proofs
